-- ==== Sys2Proof/Word.lean ====
section
/-! DEFINITION. The word types of the hardware (00_scope.md R5, R7): every value is an unsigned integer of a fixed width. -/

namespace Sys2Proof

/-- A memory cell, a general register, a timer: 8 bits, unsigned (R5). -/
abbrev Byte := BitVec 8

/-- An instruction word, PC, I, a stack cell: 16 bits, unsigned (R5). -/
abbrev Word := BitVec 16

/-- A register selector, the sprite height, a key value: 4 bits (R61, R30). -/
abbrev Nibble := BitVec 4

/-- The address immediate `nnn` (R61). -/
abbrev Imm12 := BitVec 12

end Sys2Proof
end

