-- ==== Sys2Proof/Syntax.lean ====
section
/-! DEFINITION. The 34 operation kinds of 30_encoding.md R65, one constructor per row of spec/opcode_table.json, with the
fields of R61. A nibble the hardware ignores (R67: the `?` of 5xy?, 9xy?, 8x?6, 8x?E) is kept as a field that no meaning
reads, so that an instruction says which word it came from. -/

namespace Sys2Proof

inductive Instr where
  | clearScreen                        -- 00E0, R131
  | ret                                -- 00EE, Return, R92
  | jump (nnn : Imm12)                 -- 1nnn, R90
  | call (nnn : Imm12)                 -- 2nnn, R91
  | skipEqImm (x : Nibble) (kk : Byte) -- 3xkk, R94
  | skipNeImm (x : Nibble) (kk : Byte) -- 4xkk, R95
  | skipEqReg (x y z : Nibble)         -- 5xyz, R96; z is ignored (R67)
  | loadImm (x : Nibble) (kk : Byte)   -- 6xkk, R101
  | addImm (x : Nibble) (kk : Byte)    -- 7xkk, R102
  | copy (x y : Nibble)                -- 8xy0, R103
  | or (x y : Nibble)                  -- 8xy1, R104
  | and (x y : Nibble)                 -- 8xy2, R105
  | xor (x y : Nibble)                 -- 8xy3, R106
  | add (x y : Nibble)                 -- 8xy4, R107
  | sub (x y : Nibble)                 -- 8xy5, R108
  | shiftRight (x y : Nibble)          -- 8xy6, R110; y is ignored (R67)
  | subReverse (x y : Nibble)          -- 8xy7, R109
  | shiftLeft (x y : Nibble)           -- 8xyE, R111; y is ignored (R67)
  | skipNeReg (x y z : Nibble)         -- 9xyz, R97; z is ignored (R67)
  | loadIndex (nnn : Imm12)            -- Annn, R120
  | jumpPlusV0 (nnn : Imm12)           -- Bnnn, R93
  | randMaskImm (x : Nibble) (kk : Byte) -- Cxkk, R112
  | drawSprite (x y n : Nibble)        -- Dxyn, R133
  | skipIfPressed (x : Nibble)         -- Ex9E, R140
  | skipIfNotPressed (x : Nibble)      -- ExA1, R141
  | readDelay (x : Nibble)             -- Fx07, R143
  | waitKey (x : Nibble)               -- Fx0A, R142
  | setDelay (x : Nibble)              -- Fx15, R144
  | setSound (x : Nibble)              -- Fx18, R145
  | addIndex (x : Nibble)              -- Fx1E, R121
  | loadDigitSprite (x : Nibble)       -- Fx29, R122
  | storeBCD (x : Nibble)              -- Fx33, R123
  | regDump (x : Nibble)               -- Fx55, R124; x is a count
  | regLoad (x : Nibble)               -- Fx65, R125; x is a count
  deriving DecidableEq, Repr

end Sys2Proof
end

