-- ==== Sys2Proof/WellFormed.lean ====
section
/-! DEFINITION. Well-formed instructions. The operand fields have the widths of 30_encoding.md R61 by their types, and no
register index is ever invalid (60_exceptions.md R150), so every term of `Instr` is executable. What is left to check is the
canonical form: an assembler following the spec emits 0 for every ignored nibble (R67, R69). The hardware does not make this
check, and neither do the decoder and the machine. -/

namespace Sys2Proof

/-- The canonical form an assembler emits: every ignored nibble is 0 (R67, R69; log 24). -/
def Instr.wellFormed : Instr → Bool
  | .skipEqReg _ _ z | .skipNeReg _ _ z => z == 0
  | .shiftRight _ y | .shiftLeft _ y => y == 0
  | .clearScreen | .ret | .jump _ | .call _ | .skipEqImm _ _ | .skipNeImm _ _ | .loadImm _ _ | .addImm _ _
  | .copy _ _ | .or _ _ | .and _ _ | .xor _ _ | .add _ _ | .sub _ _ | .subReverse _ _
  | .loadIndex _ | .jumpPlusV0 _ | .randMaskImm _ _ | .drawSprite _ _ _ | .skipIfPressed _ | .skipIfNotPressed _
  | .readDelay _ | .waitKey _ | .setDelay _ | .setSound _ | .addIndex _ | .loadDigitSprite _ | .storeBCD _
  | .regDump _ | .regLoad _ => true

end Sys2Proof
end

