-- ==== Sys2Proof/Decode.lean ====
section
/-! DEFINITION. The decoder (30_encoding.md R60 to R68) and, after it, an encoder written from the same table (R62, R65).
The nine low-nibble values under 0x8 and the nine low-byte values under 0xF are PRESUMED: the spec takes them from general
knowledge (R64, G1, G2; log 5). -/

namespace Sys2Proof

/-- What the decoder says of a word: an instruction, or the classification Unsupported (R66). -/
inductive Decoded where
  | instr (i : Instr)
  | unsupported
  deriving DecidableEq, Repr

/-- What the decoder says of bytes: its answer for the first word and the bytes after it, or too few bytes for a word. -/
inductive DecodedBytes where
  | word (d : Decoded) (rest : List Byte)
  | truncated
  deriving DecidableEq, Repr

/-! ### Fields of the instruction word (R61) -/

/-- `ir[15:12]`, the high nibble. -/
def fieldOp (ir : Word) : Nibble := ir.extractLsb' 12 4

/-- `ir[11:8]`. -/
def fieldX (ir : Word) : Nibble := ir.extractLsb' 8 4

/-- `ir[7:4]`. -/
def fieldY (ir : Word) : Nibble := ir.extractLsb' 4 4

/-- `ir[3:0]`, the low nibble. -/
def fieldN (ir : Word) : Nibble := ir.extractLsb' 0 4

/-- `ir[7:0]`, the low byte. -/
def fieldKK (ir : Word) : Byte := ir.extractLsb' 0 8

/-- `ir[11:0]`. -/
def fieldNNN (ir : Word) : Imm12 := ir.extractLsb' 0 12

/-! ### The decoder -/

/-- The words with high nibble 0x8 dispatch on the low nibble (R64). -/
def decode8 (ir : Word) : Decoded :=
  let x := fieldX ir
  let y := fieldY ir
  if fieldN ir = 0x0 then .instr (.copy x y)
  else if fieldN ir = 0x1 then .instr (.or x y)
  else if fieldN ir = 0x2 then .instr (.and x y)
  else if fieldN ir = 0x3 then .instr (.xor x y)
  else if fieldN ir = 0x4 then .instr (.add x y)
  else if fieldN ir = 0x5 then .instr (.sub x y)
  else if fieldN ir = 0x6 then .instr (.shiftRight x y)
  else if fieldN ir = 0x7 then .instr (.subReverse x y)
  else if fieldN ir = 0xE then .instr (.shiftLeft x y)
  else .unsupported

/-- The words with high nibble 0xE dispatch on the low byte (R64). -/
def decodeE (ir : Word) : Decoded :=
  let x := fieldX ir
  if fieldKK ir = 0x9E then .instr (.skipIfPressed x)
  else if fieldKK ir = 0xA1 then .instr (.skipIfNotPressed x)
  else .unsupported

/-- The words with high nibble 0xF dispatch on the low byte (R64). -/
def decodeF (ir : Word) : Decoded :=
  let x := fieldX ir
  if fieldKK ir = 0x07 then .instr (.readDelay x)
  else if fieldKK ir = 0x0A then .instr (.waitKey x)
  else if fieldKK ir = 0x15 then .instr (.setDelay x)
  else if fieldKK ir = 0x18 then .instr (.setSound x)
  else if fieldKK ir = 0x1E then .instr (.addIndex x)
  else if fieldKK ir = 0x29 then .instr (.loadDigitSprite x)
  else if fieldKK ir = 0x33 then .instr (.storeBCD x)
  else if fieldKK ir = 0x55 then .instr (.regDump x)
  else if fieldKK ir = 0x65 then .instr (.regLoad x)
  else .unsupported

/-- `classify` of R64 together with the fields the kind uses (R62): the two exact matches, then the high nibble. -/
def decode (ir : Word) : Decoded :=
  if ir = 0x00E0 then .instr .clearScreen
  else if ir = 0x00EE then .instr .ret
  else if fieldOp ir = 0x1 then .instr (.jump (fieldNNN ir))
  else if fieldOp ir = 0x2 then .instr (.call (fieldNNN ir))
  else if fieldOp ir = 0x3 then .instr (.skipEqImm (fieldX ir) (fieldKK ir))
  else if fieldOp ir = 0x4 then .instr (.skipNeImm (fieldX ir) (fieldKK ir))
  else if fieldOp ir = 0x5 then .instr (.skipEqReg (fieldX ir) (fieldY ir) (fieldN ir))
  else if fieldOp ir = 0x6 then .instr (.loadImm (fieldX ir) (fieldKK ir))
  else if fieldOp ir = 0x7 then .instr (.addImm (fieldX ir) (fieldKK ir))
  else if fieldOp ir = 0x8 then decode8 ir
  else if fieldOp ir = 0x9 then .instr (.skipNeReg (fieldX ir) (fieldY ir) (fieldN ir))
  else if fieldOp ir = 0xA then .instr (.loadIndex (fieldNNN ir))
  else if fieldOp ir = 0xB then .instr (.jumpPlusV0 (fieldNNN ir))
  else if fieldOp ir = 0xC then .instr (.randMaskImm (fieldX ir) (fieldKK ir))
  else if fieldOp ir = 0xD then .instr (.drawSprite (fieldX ir) (fieldY ir) (fieldN ir))
  else if fieldOp ir = 0xE then decodeE ir
  else if fieldOp ir = 0xF then decodeF ir
  else .unsupported

/-- Two bytes as a word, the first the high one: big-endian (R44, R60). -/
def wordOfBytes (hi lo : Byte) : Word := hi ++ lo

/-- The high byte of a word, at the lower address (R44). -/
def highByte (w : Word) : Byte := w.extractLsb' 8 8

/-- The low byte of a word, at the higher address (R44). -/
def lowByte (w : Word) : Byte := w.extractLsb' 0 8

/-- The decoder on bytes: one instruction and the bytes after it. Every instruction is two bytes (R60, R68). -/
def decodeBytes : List Byte → DecodedBytes
  | hi :: lo :: rest => .word (decode (wordOfBytes hi lo)) rest
  | [_] => .truncated
  | [] => .truncated

/-- What the decoder reads from an opcode-table row's word `w` of `nbits` bits (bits above `nbits` are 0): the word laid out
in memory order and given to `decodeBytes`. -/
def decodeTableWord (nbits w : Nat) : Option Instr :=
  let ir : Word := BitVec.ofNat 16 (w % 2 ^ nbits)
  match decodeBytes [highByte ir, lowByte ir] with
  | .word (.instr i) _ => some i
  | .word .unsupported _ => none
  | .truncated => none

/-! ### The encoder (R62, R65) -/

/-- Format NNN: high nibble and address immediate. -/
def wordNNN (op : Nibble) (nnn : Imm12) : Word := op ++ nnn

/-- Formats XKK and X: high nibble, register, low byte. -/
def wordXKK (op x : Nibble) (kk : Byte) : Word := (op ++ x) ++ kk

/-- Formats XY and XYN: four nibbles. -/
def wordXYN (op x y n : Nibble) : Word := (op ++ x) ++ (y ++ n)

/-- The word of an instruction. -/
def encode : Instr → Word
  | .clearScreen => 0x00E0
  | .ret => 0x00EE
  | .jump nnn => wordNNN 0x1 nnn
  | .call nnn => wordNNN 0x2 nnn
  | .skipEqImm x kk => wordXKK 0x3 x kk
  | .skipNeImm x kk => wordXKK 0x4 x kk
  | .skipEqReg x y z => wordXYN 0x5 x y z
  | .loadImm x kk => wordXKK 0x6 x kk
  | .addImm x kk => wordXKK 0x7 x kk
  | .copy x y => wordXYN 0x8 x y 0x0
  | .or x y => wordXYN 0x8 x y 0x1
  | .and x y => wordXYN 0x8 x y 0x2
  | .xor x y => wordXYN 0x8 x y 0x3
  | .add x y => wordXYN 0x8 x y 0x4
  | .sub x y => wordXYN 0x8 x y 0x5
  | .shiftRight x y => wordXYN 0x8 x y 0x6
  | .subReverse x y => wordXYN 0x8 x y 0x7
  | .shiftLeft x y => wordXYN 0x8 x y 0xE
  | .skipNeReg x y z => wordXYN 0x9 x y z
  | .loadIndex nnn => wordNNN 0xA nnn
  | .jumpPlusV0 nnn => wordNNN 0xB nnn
  | .randMaskImm x kk => wordXKK 0xC x kk
  | .drawSprite x y n => wordXYN 0xD x y n
  | .skipIfPressed x => wordXKK 0xE x 0x9E
  | .skipIfNotPressed x => wordXKK 0xE x 0xA1
  | .readDelay x => wordXKK 0xF x 0x07
  | .waitKey x => wordXKK 0xF x 0x0A
  | .setDelay x => wordXKK 0xF x 0x15
  | .setSound x => wordXKK 0xF x 0x18
  | .addIndex x => wordXKK 0xF x 0x1E
  | .loadDigitSprite x => wordXKK 0xF x 0x29
  | .storeBCD x => wordXKK 0xF x 0x33
  | .regDump x => wordXKK 0xF x 0x55
  | .regLoad x => wordXKK 0xF x 0x65

/-- The bytes of an instruction in memory order (R44). -/
def encodeBytes (i : Instr) : List Byte := [highByte (encode i), lowByte (encode i)]

/-- The instruction's mnemonic, as spec/opcode_table.json and R69 spell it. -/
def Instr.mnemonic : Instr → String
  | .clearScreen => "ClearScreen"
  | .ret => "Return"
  | .jump _ => "Jump"
  | .call _ => "Call"
  | .skipEqImm _ _ => "SkipEqImm"
  | .skipNeImm _ _ => "SkipNeImm"
  | .skipEqReg _ _ _ => "SkipEqReg"
  | .loadImm _ _ => "LoadImm"
  | .addImm _ _ => "AddImm"
  | .copy _ _ => "Copy"
  | .or _ _ => "Or"
  | .and _ _ => "And"
  | .xor _ _ => "Xor"
  | .add _ _ => "Add"
  | .sub _ _ => "Sub"
  | .shiftRight _ _ => "ShiftRight"
  | .subReverse _ _ => "SubReverse"
  | .shiftLeft _ _ => "ShiftLeft"
  | .skipNeReg _ _ _ => "SkipNeReg"
  | .loadIndex _ => "LoadIndex"
  | .jumpPlusV0 _ => "JumpPlusV0"
  | .randMaskImm _ _ => "RandMaskImm"
  | .drawSprite _ _ _ => "DrawSprite"
  | .skipIfPressed _ => "SkipIfPressed"
  | .skipIfNotPressed _ => "SkipIfNotPressed"
  | .readDelay _ => "ReadDelay"
  | .waitKey _ => "WaitKey"
  | .setDelay _ => "SetDelay"
  | .setSound _ => "SetSound"
  | .addIndex _ => "AddIndex"
  | .loadDigitSprite _ => "LoadDigitSprite"
  | .storeBCD _ => "StoreBCD"
  | .regDump _ => "RegDump"
  | .regLoad _ => "RegLoad"

/-- A row of the opcode map (R65): a word is of the kind iff `ir &&& mask = value`. -/
structure OpcodeRow where
  mnemonic : String
  mask : Word
  value : Word
  deriving DecidableEq, Repr

/-- The opcode map of R65 and spec/opcode_table.json, rows 1 to 17. -/
def opcodeRowsLow : List OpcodeRow :=
  [⟨"ClearScreen", 0xFFFF, 0x00E0⟩, ⟨"Return", 0xFFFF, 0x00EE⟩, ⟨"Jump", 0xF000, 0x1000⟩, ⟨"Call", 0xF000, 0x2000⟩,
   ⟨"SkipEqImm", 0xF000, 0x3000⟩, ⟨"SkipNeImm", 0xF000, 0x4000⟩, ⟨"SkipEqReg", 0xF000, 0x5000⟩,
   ⟨"LoadImm", 0xF000, 0x6000⟩, ⟨"AddImm", 0xF000, 0x7000⟩, ⟨"Copy", 0xF00F, 0x8000⟩, ⟨"Or", 0xF00F, 0x8001⟩,
   ⟨"And", 0xF00F, 0x8002⟩, ⟨"Xor", 0xF00F, 0x8003⟩, ⟨"Add", 0xF00F, 0x8004⟩, ⟨"Sub", 0xF00F, 0x8005⟩,
   ⟨"ShiftRight", 0xF00F, 0x8006⟩, ⟨"SubReverse", 0xF00F, 0x8007⟩]

/-- The opcode map of R65 and spec/opcode_table.json, rows 18 to 34. -/
def opcodeRowsHigh : List OpcodeRow :=
  [⟨"ShiftLeft", 0xF00F, 0x800E⟩, ⟨"SkipNeReg", 0xF000, 0x9000⟩, ⟨"LoadIndex", 0xF000, 0xA000⟩,
   ⟨"JumpPlusV0", 0xF000, 0xB000⟩, ⟨"RandMaskImm", 0xF000, 0xC000⟩, ⟨"DrawSprite", 0xF000, 0xD000⟩,
   ⟨"SkipIfPressed", 0xF0FF, 0xE09E⟩, ⟨"SkipIfNotPressed", 0xF0FF, 0xE0A1⟩, ⟨"ReadDelay", 0xF0FF, 0xF007⟩,
   ⟨"WaitKey", 0xF0FF, 0xF00A⟩, ⟨"SetDelay", 0xF0FF, 0xF015⟩, ⟨"SetSound", 0xF0FF, 0xF018⟩,
   ⟨"AddIndex", 0xF0FF, 0xF01E⟩, ⟨"LoadDigitSprite", 0xF0FF, 0xF029⟩, ⟨"StoreBCD", 0xF0FF, 0xF033⟩,
   ⟨"RegDump", 0xF0FF, 0xF055⟩, ⟨"RegLoad", 0xF0FF, 0xF065⟩]

/-- The whole opcode map. -/
def opcodeRows : List OpcodeRow := opcodeRowsLow ++ opcodeRowsHigh

end Sys2Proof
end

