-- ==== Sys2Proof/Config.lean ====
section
/-! DEFINITION. What the implementation fixes (00_scope.md R5) and the free values (R6): the inputs KEY and RAND at a
sample, and how many TimerTicks the host makes after a Step. A free value has no body: nothing can be proved of it. -/

namespace Sys2Proof.Config

/-- MEM_SIZE: bytes of memory (R5). -/
def memSize : Nat := 4096

/-- PROG_BASE: the load address and the reset value of PC (R5). -/
def progBase : Nat := 0x200

/-- MAX_ROM: the largest program Load takes, `memSize - progBase` (R5). -/
def maxRom : Nat := 3584

/-- FONT_BASE: where reset seeds the sixteen glyphs (R5). -/
def fontBase : Nat := 0x050

/-- FB_W: pixels in a row (R5). -/
def fbWidth : Nat := 64

/-- FB_H: rows (R5). -/
def fbHeight : Nat := 32

/-- KEY at the n-th draw, where the state holds no value for it: a free input in none, 0..15 (R30, U12; log 9). -/
opaque freeKey : Nat → Option Nibble

/-- RAND at the n-th draw, where the state holds no value for it: a free byte under no law (R31, U11; log 10). -/
opaque freeRand : Nat → Byte

/-- How many TimerTicks fall after a Step, where the state holds no number: the host's free schedule (R165, U13; log 11). -/
opaque freeTicks : Nat → Nat

end Sys2Proof.Config
end

