-- ==== Sys2Proof/Machine/Font.lean ====
section
/-! DEFINITION. The parameter FONT[0..79], the glyph bytes a Reset seeds at 0x050 to 0x09F (00_scope.md R6 (a),
70_reset_and_hazards.md R182), and its default. The spec states its place and layout; the default bytes are the table of R182,
taken from general knowledge (D4, G3; PRESUMED, log 2). -/

namespace Sys2Proof.Machine

/-- Glyphs 0 to 7, five bytes each, bit 7 the leftmost pixel (R182). -/
def fontLow : List Byte :=
  [0xF0, 0x90, 0x90, 0x90, 0xF0,  0x20, 0x60, 0x20, 0x20, 0x70,
   0xF0, 0x10, 0xF0, 0x80, 0xF0,  0xF0, 0x10, 0xF0, 0x10, 0xF0,
   0x90, 0x90, 0xF0, 0x10, 0x10,  0xF0, 0x80, 0xF0, 0x10, 0xF0,
   0xF0, 0x80, 0xF0, 0x90, 0xF0,  0xF0, 0x10, 0x20, 0x40, 0x40]

/-- Glyphs 8 to F (R182). -/
def fontHigh : List Byte :=
  [0xF0, 0x90, 0xF0, 0x90, 0xF0,  0xF0, 0x90, 0xF0, 0x10, 0xF0,
   0xF0, 0x90, 0xF0, 0x90, 0x90,  0xE0, 0x90, 0xE0, 0x90, 0xE0,
   0xF0, 0x80, 0x80, 0x80, 0xF0,  0xE0, 0x90, 0x90, 0x90, 0xE0,
   0xF0, 0x80, 0xF0, 0x80, 0xF0,  0xF0, 0x80, 0xF0, 0x80, 0x80]

/-- The default table as one list (R182). -/
def font : List Byte := fontLow ++ fontHigh

/-- A value of the parameter FONT: FONT[0] to FONT[79] (00_scope.md R6). -/
abbrev FontTable := Vector Byte 80

/-- The default of FONT: the table of R182. -/
def defaultFont : FontTable := ⟨font.toArray, by decide⟩

end Sys2Proof.Machine
end

