-- ==== Sys2Proof/Machine/State.lean ====
section
/-! DEFINITION. The state of the machine (10_state.md R10 to R25) and, beside it, the host's side of the machine (its inputs,
its schedule and what it observes: R30 to R34), all plain data; the reasons a step can stop; the state after reset
(70_reset_and_hazards.md R181). -/

namespace Sys2Proof.Machine

/-- The four fatal faults of 60_exceptions.md R150, the values of the latch ERR (R23). The spec describes what a fault does
(R152, R154): it is a NEXT state with ERR latched, so `step` never answers `Outcome.fault` (log 6). -/
inductive Fault where
  /-- Code 1. Raised by the decode of a Step, for a word of R66. Safe: the spec's own fault. -/
  | unsupportedOpcode
  /-- Code 2. Raised by Call with SP = 15 (R91). Safe: the spec's own fault. -/
  | stackOverflow
  /-- Code 3. Raised by Return with SP = -1 (R92). Safe: the spec's own fault. -/
  | stackUnderflow
  /-- Code 4. Raised by the fetch with PC > 4094 (R83) and by StoreBCD, RegDump, RegLoad and DrawSprite at an address above
  4095 (R41, R43). Safe: the spec's own fault. -/
  | addressOutOfRange
  deriving DecidableEq, Repr

/-- Why a step has no outcome in this model. -/
inductive Refusal where
  /-- Answered by `exec` alone, for an instruction with no meaning yet. Safe: the machine stops. No arm uses it now. -/
  | notModelled (mnemonic : String)
  /-- Answered by the event Load at another time than after Reset and before the first Step: outside the specification (R184,
  U22; log 14). Safe: the machine stops. -/
  | loadOutsideWindow
  deriving DecidableEq, Repr

/-- An input of the core: open, so that every sample is a free value of Config, or held at a value by the host. -/
inductive Input (α : Type) where
  | free
  | held (a : α)
  deriving DecidableEq, Repr

/-- What the host can do between instructions (R33): the four events of the machine, and a change of what it drives. -/
inductive Event where
  /-- One fetch, decode and execute (40_step_cycle.md R80). -/
  | step
  /-- One decrement of the timers (60_exceptions.md R164). -/
  | timerTick
  /-- Every piece of state to its reset value (70_reset_and_hazards.md R180). -/
  | reset
  /-- A program into memory from 0x200 (70_reset_and_hazards.md R184). -/
  | load (bytes : List Byte)
  /-- The host changes the input KEY (R30). -/
  | setKey (k : Input (Option Nibble))
  /-- The host changes the input RAND (R31). -/
  | setRand (b : Input Byte)
  /-- The host changes how many TimerTicks it makes after each Step (R165). -/
  | setTicks (n : Input Nat)
  deriving DecidableEq, Repr

/-- What the event Load returns to the host (R184, R185). -/
inductive LoadStatus where
  | ok
  | romTooLarge
  deriving DecidableEq, Repr

/-- What a Step returns (40_step_cycle.md R87); a function of the state after it. -/
inductive Status where
  | ok
  | waiting
  | fault (k : Fault)
  deriving DecidableEq, Repr

/-- Memory as data: cells of rising address, none equal to what an unlisted address reads as. -/
abbrev Memory := List Host.Cell

/-- The host's side: the MODEL's own fields, no state of the core. -/
structure Env where
  /-- The host's next events, first first; a Step where there is none (R33, R165; log 12). -/
  sched : List Event
  /-- KEY (R30): none or the key held; log 9. -/
  key : Input (Option Nibble)
  /-- RAND (R31); log 10. -/
  rand : Input Byte
  /-- How many TimerTicks fall after each Step (R165); log 11. -/
  ticks : Input Nat
  /-- How many free values have been drawn: the argument of Config's free values. -/
  draws : Nat
  /-- How many times REPAINT has pulsed (R32); log 15. -/
  repaints : Nat
  /-- Whether a Load is legal: after Reset and before the first Step (R184); log 14. -/
  loadOpen : Bool
  /-- What the last Load since Reset returned (R184, R185); log 25. -/
  loadStatus : Option LoadStatus
  /-- The parameter FONT, the bytes every Reset seeds (00_scope.md R6 (a)): fixed for a machine, changed by no event; log 2. -/
  font : FontTable
  deriving DecidableEq, Repr

/-- The complete state (R25) and the host's side. -/
structure State where
  /-- V[0] to V[15] (R10); V[15] is VF (R11). -/
  v : Vector Byte 16
  /-- The index register I (R12). -/
  i : Word
  /-- The program counter PC (R13). -/
  pc : Word
  /-- STACK[0] to STACK[15] (R15). -/
  stack : Vector Word 16
  /-- SP + 1, the number of entries on the stack: SP is in [-1, 15] (R16; log 4). -/
  depth : Fin 17
  /-- The delay timer DT (R18). -/
  dt : Byte
  /-- The sound timer ST (R19). -/
  st : Byte
  /-- MEM (R20). -/
  mem : Memory
  /-- FB (R21): bit idx is FB[idx], idx = y * 64 + x. -/
  fb : BitVec 2048
  /-- WAIT (R22): the x field of the WaitKey that awaits a key. -/
  wait : Option Nibble
  /-- ERR (R23). -/
  err : Option Fault
  /-- The host's side. -/
  env : Env
  deriving DecidableEq, Repr

/-- The host's side right after reset: no event pending, every input free, Load legal (DESIGN CHOICE, log 29), and FONT at its
default (PRESUMED, log 2). -/
def Env.reset : Env :=
  { sched := [], key := .free, rand := .free, ticks := .free, draws := 0, repaints := 0, loadOpen := true, loadStatus := none,
    font := defaultFont }

/-- The machine right after reset (70_reset_and_hazards.md R181). PC, SP and the font's place are the spec's; the zeros of V,
I, DT, ST, FB and of memory outside the font are decision D3 (DESIGN CHOICE, log 1), those of STACK log 3; FONT is at
its default, log 2 (the bytes that unlisted memory reads as, `Memory.resetByte`). For another FONT: `State.resetWith`. -/
def State.reset : State :=
  { v := Vector.replicate 16 0
    i := 0
    pc := BitVec.ofNat 16 Config.progBase
    stack := Vector.replicate 16 0
    depth := 0
    dt := 0
    st := 0
    mem := []
    fb := 0
    wait := none
    err := none
    env := Env.reset }

end Sys2Proof.Machine
end

