-- ==== Sys2Proof/Machine/Memory.lean ====
section
/-! DEFINITION. Memory as a list of cells in one canonical form, and its operations on one byte (20_memory.md R40, R46). The
range check of R41 to R43 is in Ops.lean; the operations here are the direct cell access of 00_scope.md R8. -/

namespace Sys2Proof.Machine

/-- What an unlisted address reads as: the reset contents of MEM (10_state.md R20) with FONT at its default, the font at 0x050
to 0x09F and 0 elsewhere (log 1, log 2). A Reset with another FONT lists the cells that differ (`Memory.seeded`). -/
def Memory.resetByte (a : Nat) : Byte :=
  if a < Config.fontBase then 0 else font.getD (a - Config.fontBase) 0

/-- `MEM[a]`: the listed byte, or the reset contents. -/
def Memory.read : Memory → Nat → Byte
  | [], a => Memory.resetByte a
  | (c, b) :: m, a => if a = c then b else Memory.read m a

/-- Puts byte `b` at address `a` of a list with rising addresses, leaving the cell out where `b` is the reset contents. -/
def Memory.insert : Memory → Nat → Byte → Memory
  | [], a, b => if b = Memory.resetByte a then [] else [(a, b)]
  | (c, d) :: m, a, b =>
    if a < c then (if b = Memory.resetByte a then (c, d) :: m else (a, b) :: (c, d) :: m)
    else if a = c then (if b = Memory.resetByte a then m else (a, b) :: m)
    else (c, d) :: Memory.insert m a b

/-- `MEM[a] <- b`. -/
def Memory.write (m : Memory) (a : Nat) (b : Byte) : Memory := Memory.insert m a b

/-- `MEM[a + k] <- bs[k]` for every k, in rising order. -/
def Memory.writeAll (m : Memory) (a : Nat) : List Byte → Memory
  | [] => m
  | b :: bs => Memory.writeAll (Memory.write m a b) (a + 1) bs

/-- The reset contents of MEM with FONT at `f`: `MEM[0x050 + k] = f[k]`, every other cell 0 (10_state.md R20). -/
def Memory.seeded (f : FontTable) : Memory := Memory.writeAll [] Config.fontBase f.toList

/-- The canonical form, with every listed address at least `lo`: addresses strictly rise, exist (R40), and no entry equals
the reset contents. -/
def Memory.wfFrom (lo : Nat) : Memory → Bool
  | [] => true
  | (c, b) :: m => decide (lo ≤ c) && decide (c < Config.memSize) && decide (b ≠ Memory.resetByte c) && Memory.wfFrom (c + 1) m

/-- The canonical form. -/
def Memory.wf (m : Memory) : Bool := Memory.wfFrom 0 m

end Sys2Proof.Machine
end

