-- ==== Sys2Proof/Machine/Ops.lean ====
section
/-! DEFINITION. The named operations over registers, stack, memory, inputs and outputs that the meanings are written with
(00_scope.md R8, 10_state.md R10 to R23, 20_memory.md R41 to R43), and the one operation that raises a fault. -/

namespace Sys2Proof.Machine

/-! ### General registers (R10) -/

/-- `V[r]`. -/
def State.getV (s : State) (r : Nibble) : Byte := s.v[r.toNat]'(by have := r.isLt; omega)

/-- `V[r] <- b`. -/
def State.setV (s : State) (r : Nibble) (b : Byte) : State :=
  { s with v := s.v.set r.toNat b (by have := r.isLt; omega) }

/-- The number of VF (R11). -/
def vf : Nibble := 15

/-! ### Other registers -/

/-- `PC <- a`. -/
def State.setPc (s : State) (a : Word) : State := { s with pc := a }

/-- `I <- a`. -/
def State.setI (s : State) (a : Word) : State := { s with i := a }

/-- `DT <- b`. -/
def State.setDt (s : State) (b : Byte) : State := { s with dt := b }

/-- `ST <- b`. -/
def State.setSt (s : State) (b : Byte) : State := { s with st := b }

/-- `WAIT <- w`. -/
def State.setWait (s : State) (w : Option Nibble) : State := { s with wait := w }

/-- `FB <- f`. -/
def State.setFb (s : State) (f : BitVec 2048) : State := { s with fb := f }

/-- `PC <- PC + 2`: the advance of the fetch (R84) and the effect of a skip that is taken. -/
def State.advance (s : State) : State := s.setPc (s.pc + 2)

/-- SP as the spec counts it: -1 is the empty stack (R16). -/
def State.sp (s : State) : Int := (s.depth.val : Int) - 1

/-! ### Raising a fault (60_exceptions.md R152)

There is no handler, no saved register and no mode (R157), and no return from a fault but Reset (R158). -/

/-- `raise Fault(k)`: ERR takes the kind and nothing else changes; the caller does nothing after it. -/
def State.raise (s : State) (k : Fault) : State := { s with err := some k }

/-! ### Stack (R17) -/

/-- `push(a)`: StackOverflow when SP = 15, with SP and STACK unchanged; else SP + 1, then the store. -/
def State.push (s : State) (a : Word) : Except Fault State :=
  if h : s.depth.val < 16 then
    .ok { s with stack := s.stack.set s.depth.val a h, depth := ⟨s.depth.val + 1, by omega⟩ }
  else .error .stackOverflow

/-- `pop()`: StackUnderflow when SP = -1; else the top entry and SP - 1. The cell is not cleared. -/
def State.pop (s : State) : Except Fault (Word × State) :=
  if h : 0 < s.depth.val then
    .ok (s.stack[s.depth.val - 1]'(by have := s.depth.isLt; omega),
         { s with depth := ⟨s.depth.val - 1, by have := s.depth.isLt; omega⟩ })
  else .error .stackUnderflow

/-! ### Memory (R41 to R43, R56): addresses are unbounded naturals, checked and never wrapped -/

/-- `MEM[a]`, direct. -/
def State.byteAt (s : State) (a : Nat) : Byte := s.mem.read a

/-- `MemRead(a, 1)`: none is AddressOutOfRange (R41). -/
def State.memRead (s : State) (a : Nat) : Option Byte :=
  if a < Config.memSize then some (s.byteAt a) else none

/-- `MemRead(a, 2)`, big-endian; both addresses are checked first (R42). -/
def State.memReadWord (s : State) (a : Nat) : Option Word :=
  if a + 1 < Config.memSize then some (wordOfBytes (s.byteAt a) (s.byteAt (a + 1))) else none

/-- `MemWrite(a, 1, b)`: none is AddressOutOfRange, with MEM unchanged (R43). -/
def State.memWrite (s : State) (a : Nat) (b : Byte) : Option State :=
  if a < Config.memSize then some { s with mem := s.mem.write a b } else none

/-- `MemWrite(a + k, 1, bs[k])` for k = 0, 1, ...: the first address out of range raises the fault, and the writes before it
stay done (60_exceptions.md R154; log 7). -/
def State.storeBytes (s : State) (a : Nat) : List Byte → State
  | [] => s
  | b :: bs =>
    match s.memWrite a b with
    | some t => t.storeBytes (a + 1) bs
    | none => s.raise .addressOutOfRange

/-- `V[r] <- MemRead(a + k, 1)` for the k-th register r of the list: the first address out of range raises the fault, and
the registers loaded before it keep their new values (R154; log 7). -/
def State.loadRegs (s : State) (a : Nat) : List Nibble → State
  | [] => s
  | r :: rs =>
    match s.memRead a with
    | some b => (s.setV r b).loadRegs (a + 1) rs
    | none => s.raise .addressOutOfRange

/-- `MemRead(a + k, 1)` for k < n, all of them before anything else: none is AddressOutOfRange (44_display.md R133). -/
def State.readBytes (s : State) (a : Nat) : Nat → Option (List Byte)
  | 0 => some []
  | n + 1 =>
    match s.memRead a, s.readBytes (a + 1) n with
    | some b, some bs => some (b :: bs)
    | _, _ => none

/-! ### Inputs (R30, R31) and the output REPAINT (R32) -/

/-- The value of an input at draw n: what the host holds it at, or the free value. -/
def Input.sample {α : Type} (x : Input α) (open_ : Nat → α) (n : Nat) : α :=
  match x with
  | .free => open_ n
  | .held a => a

/-- KEY, as a sample now would find it (R30). -/
def State.keyNow (s : State) : Option Nibble := s.env.key.sample Config.freeKey s.env.draws

/-- RAND, as a sample now would find it (R31). -/
def State.randNow (s : State) : Byte := s.env.rand.sample Config.freeRand s.env.draws

/-- How many TimerTicks fall after the Step that ends now (60_exceptions.md R165). -/
def State.ticksNow (s : State) : Nat := s.env.ticks.sample Config.freeTicks s.env.draws

/-- A sample has been taken: the next one is another draw. -/
def State.drawn (s : State) : State := { s with env := { s.env with draws := s.env.draws + 1 } }

/-- `pulse REPAINT` (R32): the host is notified once more. -/
def State.repaint (s : State) : State := { s with env := { s.env with repaints := s.env.repaints + 1 } }

end Sys2Proof.Machine
end

