-- ==== Sys2Proof/Machine/Operands.lean ====
section
/-! DEFINITION. Operand forms (30_encoding.md R63, 43_index_memory.md R126): every immediate is zero-extended, a register
operand is `V[field]`, the only memory operand is I plus a small offset, and `x` is a count in RegDump and RegLoad. -/

namespace Sys2Proof.Machine

/-- `zext_16(nnn)` (R63). -/
def addrOperand (nnn : Imm12) : Word := nnn.setWidth 16

/-- An 8-bit register value as a 16-bit one: what JumpPlusV0, AddIndex and LoadDigitSprite add or multiply. -/
def wideByte (b : Byte) : Word := b.setWidth 16

/-- The base I of a memory operand, as an unbounded natural (20_memory.md R56). -/
def State.indexBase (s : State) : Nat := s.i.toNat

/-- The registers V[0] to V[x-1], in rising order: what RegDump and RegLoad move (R124, R125). -/
def firstRegs (x : Nibble) : List Nibble := (List.range x.toNat).map (BitVec.ofNat 4)

/-- The values of the registers V[0] to V[x-1]. -/
def State.firstValues (s : State) (x : Nibble) : List Byte := (firstRegs x).map s.getV

/-- The three decimal digits of a byte, hundreds first, each as a binary value (R123). -/
def bcdDigits (a : Byte) : List Byte := [a / 100, (a / 10) % 10, a % 10]

/-- Whether the sampled KEY equals the whole 8-bit register value; none equals nothing (45_keypad_timers.md R146). -/
def keyMatches (k : Option Nibble) (b : Byte) : Bool :=
  match k with
  | some d => d.setWidth 8 == b
  | none => false

/-- The byte a key is written to a register as: 0..15 (R142). -/
def keyByte (k : Nibble) : Byte := k.setWidth 8

end Sys2Proof.Machine
end

