-- ==== Sys2Proof/Machine/Flags.lean ====
section
/-! DEFINITION. The flag VF (10_state.md R11): a flag is written as the value 0 or 1, before the result, so that with x = 15
the result wins (42_load_alu.md R100; the spec's decision D7, log 8). -/

namespace Sys2Proof.Machine

/-- A condition as a flag value: 1 or 0. -/
def flagByte (c : Bool) : Byte := if c then 1 else 0

/-- Carry of an addition: the unreduced sum exceeds 255 (R107). -/
def carryFlag (a b : Byte) : Byte := flagByte (decide (255 < a.toNat + b.toNat))

/-- Not-borrow of `a - b`: 1 iff the minuend is strictly greater (R108, R109). -/
def greaterFlag (a b : Byte) : Byte := flagByte (decide (b.toNat < a.toNat))

/-- The bit a right shift drops: the original bit 0 (R110). -/
def lowBitFlag (a : Byte) : Byte := flagByte (a.getLsbD 0)

/-- The bit a left shift drops: the original bit 7 (R111). -/
def highBitFlag (a : Byte) : Byte := flagByte (a.getLsbD 7)

/-- `V[15] <- flag`, then `V[x] <- result`; both values were computed from the registers before either write (R100). -/
def State.writeFlagged (s : State) (x : Nibble) (flag result : Byte) : State := (s.setV vf flag).setV x result

end Sys2Proof.Machine
end

