-- ==== Sys2Proof/Machine/Arith.lean ====
section
/-! DEFINITION. Register load, arithmetic and logic (42_load_alu.md): unsigned 8-bit values, results modulo 256 (R113), no
fault. Add, Sub, SubReverse and the shifts read their operands first, then write VF, then `V[x]` (R100). -/

namespace Sys2Proof.Machine

/-- LoadImm (R101). -/
def execLoadImm (x : Nibble) (kk : Byte) (s : State) : Host.Outcome State Fault Refusal := .next (s.setV x kk)

/-- AddImm (R102): no flag. -/
def execAddImm (x : Nibble) (kk : Byte) (s : State) : Host.Outcome State Fault Refusal := .next (s.setV x (s.getV x + kk))

/-- Copy (R103). -/
def execCopy (x y : Nibble) (s : State) : Host.Outcome State Fault Refusal := .next (s.setV x (s.getV y))

/-- Or (R104): no flag. -/
def execOr (x y : Nibble) (s : State) : Host.Outcome State Fault Refusal := .next (s.setV x (s.getV x ||| s.getV y))

/-- And (R105): no flag. -/
def execAnd (x y : Nibble) (s : State) : Host.Outcome State Fault Refusal := .next (s.setV x (s.getV x &&& s.getV y))

/-- Xor (R106): no flag. -/
def execXor (x y : Nibble) (s : State) : Host.Outcome State Fault Refusal := .next (s.setV x (s.getV x ^^^ s.getV y))

/-- Add (R107): VF is the carry. -/
def execAdd (x y : Nibble) (s : State) : Host.Outcome State Fault Refusal :=
  .next (s.writeFlagged x (carryFlag (s.getV x) (s.getV y)) (s.getV x + s.getV y))

/-- Sub (R108): VF is 1 iff `V[x] > V[y]`. -/
def execSub (x y : Nibble) (s : State) : Host.Outcome State Fault Refusal :=
  .next (s.writeFlagged x (greaterFlag (s.getV x) (s.getV y)) (s.getV x - s.getV y))

/-- SubReverse (R109): VF is 1 iff `V[y] > V[x]`. -/
def execSubReverse (x y : Nibble) (s : State) : Host.Outcome State Fault Refusal :=
  .next (s.writeFlagged x (greaterFlag (s.getV y) (s.getV x)) (s.getV y - s.getV x))

/-- ShiftRight (R110): only `V[x]` is shifted, y is ignored (R67). -/
def execShiftRight (x _y : Nibble) (s : State) : Host.Outcome State Fault Refusal :=
  .next (s.writeFlagged x (lowBitFlag (s.getV x)) (s.getV x >>> 1))

/-- ShiftLeft (R111): only `V[x]` is shifted, y is ignored (R67). -/
def execShiftLeft (x _y : Nibble) (s : State) : Host.Outcome State Fault Refusal :=
  .next (s.writeFlagged x (highBitFlag (s.getV x)) (s.getV x <<< 1))

/-- RandMaskImm (R112): RAND is sampled once. -/
def execRandMaskImm (x : Nibble) (kk : Byte) (s : State) : Host.Outcome State Fault Refusal :=
  .next (s.drawn.setV x (s.randNow &&& kk))

end Sys2Proof.Machine
end

