-- ==== Sys2Proof/Machine/Control.lean ====
section
/-! DEFINITION. Control transfer (41_control_flow.md): Jump, Call, Return, JumpPlusV0 and the four register skips. PC on entry
is the fetch address plus 2 (R84). -/

namespace Sys2Proof.Machine

/-- A skip: PC moves past one more 2-byte instruction when the condition holds (R98). -/
def State.skipIf (s : State) (c : Bool) : State := if c then s.advance else s

/-- Jump (R90). -/
def execJump (nnn : Imm12) (s : State) : Host.Outcome State Fault Refusal := .next (s.setPc (addrOperand nnn))

/-- Call (R91): the return address is PC, already the fetch address plus 2; on StackOverflow PC stays. -/
def execCall (nnn : Imm12) (s : State) : Host.Outcome State Fault Refusal :=
  match s.push s.pc with
  | .ok t => .next (t.setPc (addrOperand nnn))
  | .error k => .next (s.raise k)

/-- Return (R92): on StackUnderflow PC stays. -/
def execReturn (s : State) : Host.Outcome State Fault Refusal :=
  match s.pop with
  | .ok (a, t) => .next (t.setPc a)
  | .error k => .next (s.raise k)

/-- JumpPlusV0 (R93): no reduction to 12 bits (decision D6, log 19). -/
def execJumpPlusV0 (nnn : Imm12) (s : State) : Host.Outcome State Fault Refusal :=
  .next (s.setPc (addrOperand nnn + wideByte (s.getV 0)))

/-- SkipEqImm (R94). -/
def execSkipEqImm (x : Nibble) (kk : Byte) (s : State) : Host.Outcome State Fault Refusal :=
  .next (s.skipIf (s.getV x == kk))

/-- SkipNeImm (R95). -/
def execSkipNeImm (x : Nibble) (kk : Byte) (s : State) : Host.Outcome State Fault Refusal :=
  .next (s.skipIf (s.getV x != kk))

/-- SkipEqReg (R96): the low nibble is ignored (R67). -/
def execSkipEqReg (x y _z : Nibble) (s : State) : Host.Outcome State Fault Refusal :=
  .next (s.skipIf (s.getV x == s.getV y))

/-- SkipNeReg (R97): the low nibble is ignored (R67). -/
def execSkipNeReg (x y _z : Nibble) (s : State) : Host.Outcome State Fault Refusal :=
  .next (s.skipIf (s.getV x != s.getV y))

end Sys2Proof.Machine
end

