-- ==== Sys2Proof/Machine/Display.lean ====
section
/-! DEFINITION. The framebuffer and the display instructions (44_display.md). -/

namespace Sys2Proof.Machine

/-- `posToIndex(x, y)`: x is taken modulo 64 (R130). -/
def posToIndex (x y : Nat) : Nat := y * Config.fbWidth + x % Config.fbWidth

/-- `indexToPos(idx)` (R130). -/
def indexToPos (idx : Nat) : Nat × Nat := (idx % Config.fbWidth, idx / Config.fbWidth)

/-- `FB[idx]`: whether the pixel is set. -/
def pixel (f : BitVec 2048) (idx : Nat) : Bool := f.getLsbD idx

/-- The framebuffer and the collision found so far. -/
abbrev Canvas := BitVec 2048 × Bool

/-- One pixel of a sprite: the collision first, then the XOR (R132). -/
def drawPixel (idx : Nat) (bit : Bool) (c : Canvas) : Canvas :=
  (if bit then c.1 ^^^ BitVec.twoPow 2048 idx else c.1, c.2 || (pixel c.1 idx && bit))

/-- The 8 pixels of a sprite row on row `yy`, the most significant bit leftmost, columns modulo 64 (R132). -/
def drawRow (px yy : Nat) (row : Byte) (c : Canvas) : Canvas :=
  (List.range 8).foldl (fun c b => drawPixel (posToIndex (px + b) yy) (row.getLsbD (7 - b)) c) c

/-- The rows from `yy` down; the first row below the screen ends the drawing (R132). -/
def drawRows (px yy : Nat) : List Byte → Canvas → Canvas
  | [], c => c
  | row :: rows, c => if 31 < yy then c else drawRows px (yy + 1) rows (drawRow px yy row c)

/-- `drawSprite(px, py, rows)` on a framebuffer: the new framebuffer and the collision (R132). -/
def drawSprite (px py : Nat) (rows : List Byte) (f : BitVec 2048) : Canvas := drawRows px py rows (f, false)

/-- ClearScreen (R131): VF is not written; REPAINT pulses (decision D14, log 15). -/
def execClearScreen (s : State) : Host.Outcome State Fault Refusal := .next (s.setFb 0).repaint

/-- DrawSprite (R133): all n bytes are read first (decision D23, log 21), then the sprite is drawn at the old `V[x]`, `V[y]`,
then VF takes the collision, then REPAINT pulses once. -/
def execDrawSprite (x y n : Nibble) (s : State) : Host.Outcome State Fault Refusal :=
  match s.readBytes s.indexBase n.toNat with
  | some rows =>
    let c := drawSprite (s.getV x).toNat (s.getV y).toNat rows s.fb
    .next ((s.setFb c.1).setV vf (flagByte c.2)).repaint
  | none => .next (s.raise .addressOutOfRange)

end Sys2Proof.Machine
end

