-- ==== Sys2Proof/Machine/Index.lean ====
section
/-! DEFINITION. Index register and memory transfer (43_index_memory.md). I is never changed by an access (R126), and VF is
never written as a flag. -/

namespace Sys2Proof.Machine

/-- LoadIndex (R120). -/
def execLoadIndex (nnn : Imm12) (s : State) : Host.Outcome State Fault Refusal := .next (s.setI (addrOperand nnn))

/-- AddIndex (R121): modulo 65536, not 4096, and no flag (decision D5, log 18). -/
def execAddIndex (x : Nibble) (s : State) : Host.Outcome State Fault Refusal := .next (s.setI (s.i + wideByte (s.getV x)))

/-- LoadDigitSprite (R122): an offset from address 0, all 8 bits of `V[x]` used (90_conflicts.md C7, log 23). -/
def execLoadDigitSprite (x : Nibble) (s : State) : Host.Outcome State Fault Refusal := .next (s.setI (wideByte (s.getV x) * 5))

/-- StoreBCD (R123). -/
def execStoreBCD (x : Nibble) (s : State) : Host.Outcome State Fault Refusal :=
  .next (s.storeBytes s.indexBase (bcdDigits (s.getV x)))

/-- RegDump (R124): `V[x]` itself is not stored. -/
def execRegDump (x : Nibble) (s : State) : Host.Outcome State Fault Refusal := .next (s.storeBytes s.indexBase (s.firstValues x))

/-- RegLoad (R125): `V[x]` itself is not loaded. -/
def execRegLoad (x : Nibble) (s : State) : Host.Outcome State Fault Refusal := .next (s.loadRegs s.indexBase (firstRegs x))

end Sys2Proof.Machine
end

