-- ==== Sys2Proof/Machine/Keypad.lean ====
section
/-! DEFINITION. Keypad and timer instructions (45_keypad_timers.md). KEY is sampled once by each that reads it (R146). -/

namespace Sys2Proof.Machine

/-- What a sampled KEY does to a WaitKey for register `x`: a key completes it, none suspends it (R142). -/
def State.awaitKey (s : State) (x : Nibble) (k : Option Nibble) : State :=
  match k with
  | some d => (s.setV x (keyByte d)).setWait none
  | none => s.setWait (some x)

/-- SkipIfPressed (R140). -/
def execSkipIfPressed (x : Nibble) (s : State) : Host.Outcome State Fault Refusal :=
  .next (s.drawn.skipIf (keyMatches s.keyNow (s.getV x)))

/-- SkipIfNotPressed (R141). -/
def execSkipIfNotPressed (x : Nibble) (s : State) : Host.Outcome State Fault Refusal :=
  .next (s.drawn.skipIf (!keyMatches s.keyNow (s.getV x)))

/-- WaitKey (R142; the latch WAIT is decision D8, log 16). -/
def execWaitKey (x : Nibble) (s : State) : Host.Outcome State Fault Refusal := .next (s.drawn.awaitKey x s.keyNow)

/-- ReadDelay (R143). -/
def execReadDelay (x : Nibble) (s : State) : Host.Outcome State Fault Refusal := .next (s.setV x s.dt)

/-- SetDelay (R144). -/
def execSetDelay (x : Nibble) (s : State) : Host.Outcome State Fault Refusal := .next (s.setDt (s.getV x))

/-- SetSound (R145). -/
def execSetSound (x : Nibble) (s : State) : Host.Outcome State Fault Refusal := .next (s.setSt (s.getV x))

end Sys2Proof.Machine
end

