-- ==== Sys2Proof/Machine/Events.lean ====
section
/-! DEFINITION. The events of 10_state.md R33: Step (40_step_cycle.md), TimerTick (60_exceptions.md R164), Reset and Load
(70_reset_and_hazards.md R180, R184), and the host's schedule of them (R165). -/

namespace Sys2Proof.Machine

/-- What is done with the next state of an outcome; a fault or a refusal stays. -/
def onNext (f : State → State) (o : Host.Outcome State Fault Refusal) : Host.Outcome State Fault Refusal :=
  match o with
  | .next s => .next (f s)
  | .fault k => .fault k
  | .refused r => .refused r

/-! ### Step (40_step_cycle.md R80) -/

/-- The fetch: the word at PC, or none where `PC > 4094` (R83). -/
def State.fetch (s : State) : Option Word := s.memReadWord s.pc.toNat

/-- Decode and execute of a fetched word, PC already advanced (R84 to R86). -/
def runWord (ir : Word) (s : State) : Host.Outcome State Fault Refusal :=
  match decode ir with
  | .instr i => exec i s
  | .unsupported => .next (s.raise .unsupportedOpcode)

/-- The Step event (R80): a halted core does nothing (R81), a waiting one polls KEY (R82), else one fetch, decode, execute. -/
def coreStep (s : State) : Host.Outcome State Fault Refusal :=
  match s.err with
  | some _ => .next s
  | none =>
    match s.wait with
    | some w => .next (s.drawn.awaitKey w s.keyNow)
    | none =>
      match s.fetch with
      | some ir => runWord ir s.advance
      | none => .next (s.raise .addressOutOfRange)

/-- From the first Step on, no Load is legal (R184). -/
def State.closeLoad (s : State) : State := { s with env := { s.env with loadOpen := false } }

/-! ### TimerTick (60_exceptions.md R164) -/

/-- A timer one tick later: decremented unless it is zero. -/
def tickByte (b : Byte) : Byte := if b = 0 then 0 else b - 1

/-- The event TimerTick; it is held by nothing, neither by WAIT nor by ERR (R164; log 22). -/
def State.timerTick (s : State) : State := (s.setDt (tickByte s.dt)).setSt (tickByte s.st)

/-- A timer `n` ticks later: it stops at zero (R18, R164). -/
def ticksByte (n : Nat) (b : Byte) : Byte := if b = 0 then 0 else BitVec.ofNat 8 (b.toNat - n)

/-- `n` TimerTicks in a row. -/
def State.timerTicks (s : State) (n : Nat) : State := (s.setDt (ticksByte n s.dt)).setSt (ticksByte n s.st)

/-- The TimerTicks the host makes after a Step and before its next event (R165; log 11). -/
def State.elapse (s : State) : State := (s.timerTicks s.ticksNow).drawn

/-! ### Reset and Load (70_reset_and_hazards.md R180, R184) -/

/-- The machine right after reset with FONT at `f` (00_scope.md R6 (a), R181): `State.reset` is this at the default (log 2). -/
def State.resetWith (f : FontTable) : State :=
  { State.reset with mem := Memory.seeded f, env := { Env.reset with font := f } }

/-- The event Reset: every piece of state to its reset value, memory seeded with the machine's FONT; the host's side is the
host's and stays, with Load legal again (log 30). -/
def State.resetEvent (s : State) : State :=
  { State.resetWith s.env.font with env := { s.env with loadOpen := true, loadStatus := none } }

/-- The event Load, where it is legal: MEM from 0x200, or, for more than 3584 bytes (`len + 0x200 > 4096`), RomTooLarge with
nothing written (R184, R185). -/
def State.loadEvent (s : State) (bytes : List Byte) : State :=
  if bytes.length ≤ Config.maxRom then
    { s with mem := s.mem.writeAll Config.progBase bytes, env := { s.env with loadStatus := some .ok } }
  else { s with env := { s.env with loadStatus := some .romTooLarge } }

/-! ### The schedule (R33, R165; log 12) -/

/-- The event that comes next: the first of the schedule, or a Step where the host has named none. -/
def State.nextEvent (s : State) : Event :=
  match s.env.sched with
  | [] => .step
  | e :: _ => e

/-- The schedule without its first event. -/
def State.popEvent (s : State) : State := { s with env := { s.env with sched := s.env.sched.tail } }

/-- What an event does. -/
def runEvent (e : Event) (s : State) : Host.Outcome State Fault Refusal :=
  match e with
  | .step => onNext State.elapse (coreStep s.closeLoad)
  | .timerTick => .next s.timerTick
  | .reset => .next s.resetEvent
  | .load bytes => if s.env.loadOpen then .next (s.loadEvent bytes) else .refused .loadOutsideWindow
  | .setKey k => .next { s with env := { s.env with key := k } }
  | .setRand b => .next { s with env := { s.env with rand := b } }
  | .setTicks n => .next { s with env := { s.env with ticks := n } }

/-! ### Placing a word where the next fetch reads it -/

/-- A word stored big-endian at `a` and `a + 1` (20_memory.md R44). -/
def State.placeWord (s : State) (a : Nat) (ir : Word) : State :=
  { s with mem := s.mem.writeAll a [highByte ir, lowByte ir] }

/-- The state in which the next event is a Step that fetches: nothing scheduled, not halted, not waiting, and PC at the load
address where it could not be fetched from. -/
def State.readyToFetch (s : State) : State :=
  { s with
    env := { s.env with sched := [] }
    err := none
    wait := none
    pc := if s.pc.toNat + 1 < Config.memSize then s.pc else BitVec.ofNat 16 Config.progBase }

end Sys2Proof.Machine
end

