-- ==== Sys2Proof/Machine/Outputs.lean ====
section
/-! DEFINITION. What the host may read between events (10_state.md R34), none of which changes state. -/

namespace Sys2Proof.Machine

/-- AWAITING (R22). -/
def State.awaiting (s : State) : Bool := s.wait.isSome

/-- The status of the last Step, a function of the state after it (40_step_cycle.md R87). -/
def State.status (s : State) : Status :=
  match s.err with
  | some k => .fault k
  | none => if s.awaiting then .waiting else .ok

/-- The code of a fault; 0 is none (60_exceptions.md R150). -/
def errCode : Option Fault → Nat
  | none => 0
  | some .unsupportedOpcode => 1
  | some .stackOverflow => 2
  | some .stackUnderflow => 3
  | some .addressOutOfRange => 4

/-- The pixel query by coordinate: x modulo 64, none where y is invalid (R34, R130). -/
def State.pixelAt (s : State) (x y : Nat) : Option Bool :=
  if y < Config.fbHeight then some (pixel s.fb (posToIndex x y)) else none

/-- The pixel query by flat index, none where it is invalid (R34, R130). -/
def State.pixelIndex (s : State) (idx : Nat) : Option Bool :=
  if idx < Config.fbWidth * Config.fbHeight then some (pixel s.fb idx) else none

/-- The delay timer query (R34). -/
def State.delayTimer (s : State) : Byte := s.dt

/-- The sound timer query (R34). -/
def State.soundTimer (s : State) : Byte := s.st

/-- The word a host reads back after an execute-phase fault: the one at PC - 2 (60_exceptions.md R151). -/
def State.faultingWord (s : State) : Option Word := s.memReadWord (s.pc.toNat - 2)

end Sys2Proof.Machine
end

