-- ==== Sys2Proof/Machine/Step.lean ====
section
/-! DEFINITION. One step of the machine: the host's next event (10_state.md R33). Where the host has named none it is a Step:
one fetch, decode, execute. -/

namespace Sys2Proof.Machine

/-- The next event of the schedule, or a Step (log 12). -/
def step (s : State) : Host.Outcome State Fault Refusal := runEvent s.nextEvent s.popEvent

/-- `s` with the word `w` of `nbits` bits (bits above are 0) stored where the next step fetches, and that step a Step that
fetches (log 13). -/
def State.withFetchWord (s : State) (nbits w : Nat) : State :=
  s.readyToFetch.placeWord s.readyToFetch.pc.toNat (BitVec.ofNat 16 (w % 2 ^ nbits))

end Sys2Proof.Machine
end

