-- ==== Sys2Proof/Safety.lean ====
section
/-! DEFINITION. The terms claims are stated in: how a run ends (70_reset_and_hazards.md R188), what an instruction leaves
unchanged, and the invariants of the machine. -/

namespace Sys2Proof.Machine

/-! ### The end of a run (R188, decision D26) -/

/-- A run has ended normally: neither halted nor waiting, at a Jump to its own address. -/
def State.endedNormally (s : State) : Prop :=
  s.err = none ∧ s.wait = none ∧ s.pc.toNat ≤ 4094 ∧ s.fetch = some (0x1000 ||| s.pc)

/-- A run has failed: a fault is latched. -/
def State.failed (s : State) : Prop := s.err ≠ none

/-! ### Frames: what may differ between two states -/

/-- The parts of a state a frame speaks of; a general register by its number. -/
inductive Part where
  | v (r : Nibble)
  | i
  | pc
  | stack
  | dt
  | st
  | mem
  | fb
  | wait
  | err
  /-- The model's own counter of draws. -/
  | draws
  /-- The model's own count of REPAINT pulses. -/
  | repaints
  deriving DecidableEq, Repr

/-- The two states agree on a part: a register holds the same value, every byte of memory and every pixel reads the same,
the stack has the same depth and the same cells. -/
def Part.same (s t : State) : Part → Prop
  | .v r => t.getV r = s.getV r
  | .i => t.i = s.i
  | .pc => t.pc = s.pc
  | .stack => t.depth = s.depth ∧ t.stack = s.stack
  | .dt => t.dt = s.dt
  | .st => t.st = s.st
  | .mem => ∀ a, t.byteAt a = s.byteAt a
  | .fb => ∀ idx, pixel t.fb idx = pixel s.fb idx
  | .wait => t.wait = s.wait
  | .err => t.err = s.err
  | .draws => t.env.draws = s.env.draws
  | .repaints => t.env.repaints = s.env.repaints

/-- `t` agrees with `s` on every part not listed, on what the host alone changes, and on the parameter FONT. -/
def Unchanged (but : List Part) (s t : State) : Prop :=
  (∀ p, p ∉ but → p.same s t) ∧
    t.env.sched = s.env.sched ∧ t.env.key = s.env.key ∧ t.env.rand = s.env.rand ∧ t.env.ticks = s.env.ticks ∧
    t.env.loadOpen = s.env.loadOpen ∧ t.env.loadStatus = s.env.loadStatus ∧ t.env.font = s.env.font

/-! ### PC after an instruction (10_state.md R14) -/

/-- The fetch address plus 4 when a skip's condition holds, else plus 2. -/
def skipTarget (a : Word) (c : Bool) : Word := if c then a + 4 else a + 2

/-- PC after the instruction fetched at `s.pc` has run, by the table of R14; `s` is the state before the fetch. -/
def pcAfter (i : Instr) (s : State) : Word :=
  match i with
  | .jump nnn => addrOperand nnn
  | .call nnn => if s.depth.val < 16 then addrOperand nnn else s.pc + 2
  | .ret => match s.pop with
    | .ok (a, _) => a
    | .error _ => s.pc + 2
  | .jumpPlusV0 nnn => addrOperand nnn + wideByte (s.getV 0)
  | .skipEqImm x kk => skipTarget s.pc (s.getV x == kk)
  | .skipNeImm x kk => skipTarget s.pc (s.getV x != kk)
  | .skipEqReg x y _ => skipTarget s.pc (s.getV x == s.getV y)
  | .skipNeReg x y _ => skipTarget s.pc (s.getV x != s.getV y)
  | .skipIfPressed x => skipTarget s.pc (keyMatches s.keyNow (s.getV x))
  | .skipIfNotPressed x => skipTarget s.pc (!keyMatches s.keyNow (s.getV x))
  | .clearScreen | .loadImm _ _ | .addImm _ _ | .copy _ _ | .or _ _ | .and _ _ | .xor _ _ | .add _ _ | .sub _ _
  | .shiftRight _ _ | .subReverse _ _ | .shiftLeft _ _ | .loadIndex _ | .randMaskImm _ _ | .drawSprite _ _ _
  | .readDelay _ | .waitKey _ | .setDelay _ | .setSound _ | .addIndex _ | .loadDigitSprite _ | .storeBCD _
  | .regDump _ | .regLoad _ => s.pc + 2

/-- A core that will fetch at its next Step: neither halted nor waiting, PC within the space a word can be read from
(40_step_cycle.md R80, R83). -/
def State.fetches (s : State) : Prop := s.err = none ∧ s.wait = none ∧ s.pc.toNat ≤ 4094

/-- The word at PC, from its two bytes (20_memory.md R44). -/
def State.wordAtPc (s : State) : Word := wordOfBytes (s.byteAt s.pc.toNat) (s.byteAt (s.pc.toNat + 1))

/-! ### What a sprite covers (44_display.md R132) -/

/-- Whether the sprite at (px, py) has a 1 bit over the pixel idx: the pixel's row is one of the sprite's, its column is one
of the eight from px on, modulo 64, and that bit of that row byte, the most significant leftmost, is 1. -/
def spriteBit (px py : Nat) (rows : List Byte) (idx : Nat) : Bool :=
  let row := idx / 64
  let b := (idx % 64 + 64 - px % 64) % 64
  decide (py ≤ row) && decide (b < 8) && (rows.getD (row - py) 0).getLsbD (7 - b)

/-! ### Invariants -/

/-- Memory is in its canonical form. -/
def State.memWf (s : State) : Prop := s.mem.wf = true

/-- PC never exceeds 0x10FE, and every return address on the stack is at most 0x1000 (10_state.md R13, 41_control_flow.md
R92). -/
def State.pcBounded (s : State) : Prop :=
  s.pc.toNat ≤ 0x10FE ∧ ∀ k (h : k < 16), k < s.depth.val → (s.stack[k]'h).toNat ≤ 0x1000

/-- A core is never both halted and waiting (40_step_cycle.md R80). -/
def State.oneLatch (s : State) : Prop := s.err = none ∨ s.wait = none

/-- The two states agree but for dead stack cells, those at or above the depth (70_reset_and_hazards.md R183). -/
def SameButDeadCells (s t : State) : Prop :=
  t = { s with stack := t.stack } ∧ ∀ k (h : k < 16), k < s.depth.val → t.stack[k]'h = s.stack[k]'h

/-- The two states agree but for what KEY is held at (40_step_cycle.md R88). -/
def SameButKey (s t : State) : Prop := t = { s with env := { s.env with key := t.env.key } }

/-- The two states agree but for what RAND is held at (40_step_cycle.md R88). -/
def SameButRand (s t : State) : Prop := t = { s with env := { s.env with rand := t.env.rand } }

end Sys2Proof.Machine
end

