-- ==== Sys2Proof/Certificates/Slice0/Obligations.lean ====
section
/-! DEFINITION. The statements for the provers. Each says what the spec's rules say an instruction or the machine does; what
rests on the spec's own decisions or on the model's choices says so. -/

open Sys2Proof Sys2Proof.Machine

/-! ### Encoding and decoding (30_encoding.md) -/

/-- A few words, one or two of each format, decode to the instruction they stand for (95_test_vectors.md E10 to E14, X4,
X11; 30_encoding.md R61, R65; the sub-opcode values under 0x8 and 0xF are PRESUMED, log 5). -/
def Obligations.SampleWordsDecode : Prop :=
  decode 0x00E0 = .instr .clearScreen ∧ decode 0x00EE = .instr .ret ∧ decode 0x1AD3 = .instr (.jump 0xAD3) ∧
    decode 0x2FD0 = .instr (.call 0xFD0) ∧ decode 0x332A = .instr (.skipEqImm 3 0x2A) ∧
    decode 0x512F = .instr (.skipEqReg 1 2 0xF) ∧ decode 0x8124 = .instr (.add 1 2) ∧
    decode 0x81A6 = .instr (.shiftRight 1 0xA) ∧ decode 0xA2F0 = .instr (.loadIndex 0x2F0) ∧
    decode 0xD21F = .instr (.drawSprite 2 1 0xF) ∧ decode 0xE49E = .instr (.skipIfPressed 4) ∧
    decode 0xF433 = .instr (.storeBCD 4) ∧ decode 0xFFFF = .unsupported ∧ decode 0x0000 = .unsupported ∧
    decode 0x8128 = .unsupported

/-- Decode and encode agree: every instruction, with every operand at every value, is read back from its word (R61, R62,
R65). The sub-opcode values under 0x8 and 0xF are PRESUMED (log 5), and the statement holds of them as they are. -/
def Obligations.DecodeEncodeAgree : Prop := ∀ i : Instr, decode (encode i) = .instr i

/-- No bit of a supported word is lost: the word is the encoding of the instruction it decodes to, ignored nibbles included
(R61, R67). -/
def Obligations.EncodeOfDecodedWord : Prop := ∀ (w : Word) (i : Instr), decode w = .instr i → encode i = w

/-- A word is of a row's kind exactly when it matches the row (R65). -/
def Obligations.OpcodeMapSelectsKind : Prop :=
  ∀ row ∈ opcodeRows, ∀ w : Word,
    w &&& row.mask = row.value ↔ ∃ i, decode w = .instr i ∧ i.mnemonic = row.mnemonic

/-- The unsupported words are exactly the four classes of R66. -/
def Obligations.UnsupportedWords : Prop :=
  ∀ w : Word, decode w = .unsupported ↔
    (fieldOp w = 0x0 ∧ fieldNNN w ≠ 0x0E0 ∧ fieldNNN w ≠ 0x0EE) ∨
    (fieldOp w = 0x8 ∧ fieldN w ∈ [0x8, 0x9, 0xA, 0xB, 0xC, 0xD, 0xF]) ∨
    (fieldOp w = 0xE ∧ fieldKK w ∉ [0x9E, 0xA1]) ∨
    (fieldOp w = 0xF ∧ fieldKK w ∉ [0x07, 0x0A, 0x15, 0x18, 0x1E, 0x29, 0x33, 0x55, 0x65])

/-- Ignored nibbles change nothing: SkipEqReg and SkipNeReg are selected by the high nibble alone, and the nibble that
SkipEqReg, SkipNeReg, ShiftRight and ShiftLeft ignore does not matter to what they do (R67). -/
def Obligations.IgnoredNibblesDoNothing : Prop :=
  (∀ w : Word, fieldOp w = 0x5 → decode w = .instr (.skipEqReg (fieldX w) (fieldY w) (fieldN w))) ∧
    (∀ w : Word, fieldOp w = 0x9 → decode w = .instr (.skipNeReg (fieldX w) (fieldY w) (fieldN w))) ∧
    ∀ (x y z z' : Nibble) (s : State),
      exec (.skipEqReg x y z) s = exec (.skipEqReg x y z') s ∧ exec (.skipNeReg x y z) s = exec (.skipNeReg x y z') s ∧
        exec (.shiftRight x z) s = exec (.shiftRight x z') s ∧ exec (.shiftLeft x z) s = exec (.shiftLeft x z') s

/-! ### The Step event (40_step_cycle.md) -/

/-- A step runs the decoded instruction: where the host's next event is a Step, the core is neither halted nor waiting, and
the two bytes at PC decode to `i`, step is exec of `i` with PC already advanced (R80, R83, R84, R86); around it the model
takes the event off its schedule, closes the Load window, and lets the host's TimerTicks fall (log 11, 12, 14). -/
def Obligations.StepRunsDecodedInstruction : Prop :=
  ∀ (s : State) (i : Instr), s.nextEvent = .step → s.fetches → decode s.wordAtPc = .instr i →
    step s = onNext State.elapse (exec i s.popEvent.closeLoad.advance)

/-- An Unsupported word: the Step latches UnsupportedOpcode; nothing else changes but PC, which has been advanced; the word
can be read back at PC - 2 (R85). -/
def Obligations.UnsupportedWordFaults : Prop :=
  ∀ s : State, s.fetches → decode s.wordAtPc = .unsupported →
    ∃ t, coreStep s = .next t ∧ t.err = some .unsupportedOpcode ∧ t.pc = s.pc + 2 ∧ Unchanged [.pc, .err] s t ∧
      t.faultingWord = some s.wordAtPc

/-- A fetch with PC above 4094 latches AddressOutOfRange and changes nothing else, PC included (R83; the spec's decision
D10, log 7). -/
def Obligations.FetchOutOfRangeFaults : Prop :=
  ∀ s : State, s.err = none → s.wait = none → 4094 < s.pc.toNat →
    ∃ t, coreStep s = .next t ∧ t.err = some .addressOutOfRange ∧ Unchanged [.err] s t

/-- How each instruction leaves PC (R14): the table `pcAfter`, whole Step, faults of the execute phase included; Call also
pushes the fetch address plus 2; a fetch that faults leaves PC. -/
def Obligations.PcAfterEachInstruction : Prop :=
  (∀ (s : State) (i : Instr), s.fetches → decode s.wordAtPc = .instr i →
    ∃ t, coreStep s = .next t ∧ (t.err = none → t.pc = pcAfter i s) ∧ (t.err ≠ none → t.pc = s.pc + 2)) ∧
  (∀ (s : State) (nnn : Imm12) (h : s.depth.val < 16), s.fetches → decode s.wordAtPc = .instr (.call nnn) →
    ∃ t, coreStep s = .next t ∧ t.err = none ∧ t.stack[s.depth.val] = s.pc + 2) ∧
  ∀ s : State, s.err = none → s.wait = none → 4094 < s.pc.toNat → ∃ t, coreStep s = .next t ∧ t.pc = s.pc

/-- A halted core: a Step changes nothing (R81, R153; the spec's decision D19, log 22), and no event but Reset clears ERR
(R23). -/
def Obligations.HaltedUntilReset : Prop :=
  (∀ s : State, s.err ≠ none → coreStep s = .next s) ∧
    ∀ s t : State, s.err ≠ none → s.nextEvent ≠ .reset → step s = .next t → t.err = s.err

/-- Step is total: it never answers a fault, and it is refused in one case alone, a Load outside its window (R88, R184; the
form of a fault as a next state is log 6). -/
def Obligations.StepIsTotal : Prop :=
  ∀ s : State, (∃ t, step s = .next t) ∨
    (step s = .refused .loadOutsideWindow ∧ s.env.loadOpen = false ∧ ∃ bytes, s.nextEvent = .load bytes)

/-- Which fault which instruction can raise (R155): Call only StackOverflow, Return only StackUnderflow, the four memory
instructions only AddressOutOfRange, every other instruction none. -/
def Obligations.FaultsByInstruction : Prop :=
  ∀ (i : Instr) (s t : State), s.err = none → exec i s = .next t →
    match i with
    | .call _ => t.err = none ∨ t.err = some .stackOverflow
    | .ret => t.err = none ∨ t.err = some .stackUnderflow
    | .storeBCD _ | .regDump _ | .regLoad _ | .drawSprite _ _ _ => t.err = none ∨ t.err = some .addressOutOfRange
    | _ => t.err = none

/-! ### Register load, arithmetic and logic (42_load_alu.md) -/

/-- LoadImm, 6xkk: V[x] takes kk, VF like any register with x = 15; no flag, no fault, nothing else changes (R101). -/
def Obligations.LoadImmResult : Prop :=
  ∀ (x : Nibble) (kk : Byte) (s : State), decode (wordXKK 0x6 x kk) = .instr (.loadImm x kk) ∧
    ∃ t, exec (.loadImm x kk) s = .next t ∧ t.getV x = kk ∧ Unchanged [.v x] s t

/-- AddImm, 7xkk: V[x] takes V[x] + kk modulo 256; no flag (with x ≠ 15, VF is among what is unchanged, on wrap-around too),
no fault, nothing else changes (R102). -/
def Obligations.AddImmResult : Prop :=
  ∀ (x : Nibble) (kk : Byte) (s : State), decode (wordXKK 0x7 x kk) = .instr (.addImm x kk) ∧
    ∃ t, exec (.addImm x kk) s = .next t ∧ (t.getV x).toNat = ((s.getV x).toNat + kk.toNat) % 256 ∧ Unchanged [.v x] s t

/-- Copy, Or, And, Xor: the destination takes the result and nothing else changes, VF included (R103 to R106). -/
def Obligations.LogicResults : Prop :=
  ∀ (x y : Nibble) (s : State),
    (∃ t, exec (.copy x y) s = .next t ∧ t.getV x = s.getV y ∧ Unchanged [.v x] s t) ∧
    (∃ t, exec (.or x y) s = .next t ∧ t.getV x = s.getV x ||| s.getV y ∧ Unchanged [.v x] s t) ∧
    (∃ t, exec (.and x y) s = .next t ∧ t.getV x = s.getV x &&& s.getV y ∧ Unchanged [.v x] s t) ∧
    (∃ t, exec (.xor x y) s = .next t ∧ t.getV x = s.getV x ^^^ s.getV y ∧ Unchanged [.v x] s t)

/-- Add: the sum modulo 256 in V[x] and the carry in VF, of the operands before either write; with x = 15 the sum wins (R100,
R107; the write order is the spec's decision D7, log 8). -/
def Obligations.AddResult : Prop :=
  ∀ (x y : Nibble) (s : State),
    ∃ t, exec (.add x y) s = .next t ∧ (t.getV x).toNat = ((s.getV x).toNat + (s.getV y).toNat) % 256 ∧
      (x ≠ vf → t.getV vf = if 255 < (s.getV x).toNat + (s.getV y).toNat then 1 else 0) ∧ Unchanged [.v x, .v vf] s t

/-- Sub and SubReverse: the difference modulo 256 in V[x], and VF 1 exactly when the minuend is strictly greater; with x = 15
the difference wins (R100, R108, R109; decision D7, log 8). -/
def Obligations.SubResults : Prop :=
  ∀ (x y : Nibble) (s : State),
    (∃ t, exec (.sub x y) s = .next t ∧
      (t.getV x).toNat = (if (s.getV y).toNat ≤ (s.getV x).toNat then (s.getV x).toNat - (s.getV y).toNat
        else (s.getV x).toNat + 256 - (s.getV y).toNat) ∧
      (x ≠ vf → t.getV vf = if (s.getV y).toNat < (s.getV x).toNat then 1 else 0) ∧ Unchanged [.v x, .v vf] s t) ∧
    (∃ t, exec (.subReverse x y) s = .next t ∧
      (t.getV x).toNat = (if (s.getV x).toNat ≤ (s.getV y).toNat then (s.getV y).toNat - (s.getV x).toNat
        else (s.getV y).toNat + 256 - (s.getV x).toNat) ∧
      (x ≠ vf → t.getV vf = if (s.getV x).toNat < (s.getV y).toNat then 1 else 0) ∧ Unchanged [.v x, .v vf] s t)

/-- ShiftRight and ShiftLeft: V[x] shifted by one bit, zero filled, and the bit shifted out in VF; with x = 15 the shifted
value wins (R100, R110, R111; decision D7, log 8). -/
def Obligations.ShiftResults : Prop :=
  ∀ (x y : Nibble) (s : State),
    (∃ t, exec (.shiftRight x y) s = .next t ∧ (t.getV x).toNat = (s.getV x).toNat / 2 ∧
      (x ≠ vf → (t.getV vf).toNat = (s.getV x).toNat % 2) ∧ Unchanged [.v x, .v vf] s t) ∧
    (∃ t, exec (.shiftLeft x y) s = .next t ∧ (t.getV x).toNat = (s.getV x).toNat * 2 % 256 ∧
      (x ≠ vf → (t.getV vf).toNat = (s.getV x).toNat / 128) ∧ Unchanged [.v x, .v vf] s t)

/-- RandMaskImm, Cxkk: V[x] takes the sampled RAND under the mask, RAND sampled once (the model counts its samples); every
result bit outside the mask is 0, and a mask of 0xFF gives RAND; no flag, no fault, nothing else changes (R112). -/
def Obligations.RandMaskImmResult : Prop :=
  ∀ (x : Nibble) (kk : Byte) (s : State), decode (wordXKK 0xC x kk) = .instr (.randMaskImm x kk) ∧
    ∃ t, exec (.randMaskImm x kk) s = .next t ∧ t.getV x = s.randNow &&& kk ∧ t.env.draws = s.env.draws + 1 ∧
      (∀ b, kk.getLsbD b = false → (t.getV x).getLsbD b = false) ∧ (kk = 0xFF → t.getV x = s.randNow) ∧
      Unchanged [.v x, .draws] s t

/-! ### Control transfer (41_control_flow.md) -/

/-- Jump, 1nnn: PC takes nnn, no flag, no fault, nothing else changes; 0xFFF alone is a target that cannot be fetched
(R90). -/
def Obligations.JumpResult : Prop :=
  ∀ (nnn : Imm12) (s : State), decode (wordNNN 0x1 nnn) = .instr (.jump nnn) ∧
    ∃ t, exec (.jump nnn) s = .next t ∧ t.pc.toNat = nnn.toNat ∧ (t.fetch = none ↔ nnn = 0xFFF) ∧ Unchanged [.pc] s t

/-- Call: with SP below 15, SP grows by one, the new top is PC as it stands, and PC takes nnn; with SP = 15, StackOverflow is
latched and SP, STACK and PC are unchanged (R91). -/
def Obligations.CallResult : Prop :=
  (∀ (nnn : Imm12) (s : State) (h : s.depth.val < 16),
    ∃ t, exec (.call nnn) s = .next t ∧ t.sp = s.sp + 1 ∧ t.stack[s.depth.val] = s.pc ∧
      (∀ k (hk : k < 16), k ≠ s.depth.val → t.stack[k] = s.stack[k]) ∧ t.pc.toNat = nnn.toNat ∧
      Unchanged [.pc, .stack] s t) ∧
  ∀ (nnn : Imm12) (s : State), s.sp = 15 →
    ∃ t, exec (.call nnn) s = .next t ∧ t.err = some .stackOverflow ∧ Unchanged [.err] s t

/-- Return: with SP not -1, PC takes the top entry and SP falls by one, every cell of STACK keeping its value; with SP = -1,
StackUnderflow is latched and SP, STACK and PC are unchanged (R92). Where every return address on the stack is at most 0x1000,
so is the popped one. -/
def Obligations.ReturnResult : Prop :=
  (∀ (s : State) (h : 0 < s.depth.val),
    ∃ t, exec .ret s = .next t ∧ t.pc = s.stack[s.depth.val - 1]'(by omega) ∧ t.sp = s.sp - 1 ∧ t.stack = s.stack ∧
      (s.pcBounded → t.pc.toNat ≤ 0x1000) ∧ Unchanged [.pc, .stack] s t) ∧
  ∀ s : State, s.sp = -1 →
    ∃ t, exec .ret s = .next t ∧ t.err = some .stackUnderflow ∧ Unchanged [.err] s t

/-- The two stack operations (R17). A push with SP below 15 raises SP by one and stores at the new top, every other cell
kept; with SP = 15 it is StackOverflow, and there is no state after it. A pop with SP not -1 returns the top entry and lowers
SP by one, no cell changed; with SP = -1 it is StackUnderflow. Two pushes come back in reverse order. -/
def Obligations.StackOperations : Prop :=
  (∀ (s : State) (a : Word) (h : s.depth.val < 16),
    ∃ t, s.push a = .ok t ∧ t.sp = s.sp + 1 ∧ t.stack[s.depth.val] = a ∧
      (∀ k (hk : k < 16), k ≠ s.depth.val → t.stack[k] = s.stack[k]) ∧ Unchanged [.stack] s t) ∧
  (∀ (s : State) (a : Word), s.sp = 15 → s.push a = .error .stackOverflow) ∧
  (∀ (s : State) (h : 0 < s.depth.val),
    ∃ t, s.pop = .ok (s.stack[s.depth.val - 1]'(by omega), t) ∧ t.sp = s.sp - 1 ∧ t.stack = s.stack ∧
      Unchanged [.stack] s t) ∧
  (∀ s : State, s.sp = -1 → s.pop = .error .stackUnderflow) ∧
  ∀ (s : State) (a b : Word), s.sp < 14 →
    ∃ t u w r, s.push a = .ok t ∧ t.push b = .ok u ∧ u.pop = .ok (b, w) ∧ w.pop = .ok (a, r) ∧ r.sp = s.sp

/-- JumpPlusV0: PC takes nnn + V[0] with no reduction, at most 0x10FE (R93; not masking is the spec's decision D6,
log 19). -/
def Obligations.JumpPlusV0Result : Prop :=
  ∀ (nnn : Imm12) (s : State),
    ∃ t, exec (.jumpPlusV0 nnn) s = .next t ∧ t.pc.toNat = nnn.toNat + (s.getV 0).toNat ∧ t.pc.toNat ≤ 0x10FE ∧
      Unchanged [.pc] s t

/-- The four register skips, 3xkk, 4xkk, 5xy?, 9xy?: PC moves on by 2 exactly when the condition holds; no flag, no fault,
nothing else changes, and the ignored nibble z does not matter (R94 to R97). -/
def Obligations.RegisterSkips : Prop :=
  ∀ (x y z : Nibble) (kk : Byte) (s : State),
    (decode (wordXKK 0x3 x kk) = .instr (.skipEqImm x kk) ∧ decode (wordXKK 0x4 x kk) = .instr (.skipNeImm x kk) ∧
      decode (wordXYN 0x5 x y z) = .instr (.skipEqReg x y z) ∧ decode (wordXYN 0x9 x y z) = .instr (.skipNeReg x y z)) ∧
    (∃ t, exec (.skipEqImm x kk) s = .next t ∧ t.pc = (if s.getV x = kk then s.pc + 2 else s.pc) ∧ Unchanged [.pc] s t) ∧
    (∃ t, exec (.skipNeImm x kk) s = .next t ∧ t.pc = (if s.getV x ≠ kk then s.pc + 2 else s.pc) ∧ Unchanged [.pc] s t) ∧
    (∃ t, exec (.skipEqReg x y z) s = .next t ∧ t.pc = (if s.getV x = s.getV y then s.pc + 2 else s.pc) ∧
      Unchanged [.pc] s t) ∧
    (∃ t, exec (.skipNeReg x y z) s = .next t ∧ t.pc = (if s.getV x ≠ s.getV y then s.pc + 2 else s.pc) ∧
      Unchanged [.pc] s t)

/-! ### Index register and memory transfer (43_index_memory.md) -/

/-- LoadIndex, Annn: I takes nnn, so bits 15 to 12 become 0; no flag, no fault, nothing else changes (R120). -/
def Obligations.LoadIndexResult : Prop :=
  ∀ (nnn : Imm12) (s : State), decode (wordNNN 0xA nnn) = .instr (.loadIndex nnn) ∧
    ∃ t, exec (.loadIndex nnn) s = .next t ∧ t.i.toNat = nnn.toNat ∧ Unchanged [.i] s t

/-- AddIndex: the sum modulo 65536, not 4096, and no flag (R121; the modulus is the spec's decision D5, log 18). -/
def Obligations.AddIndexResult : Prop :=
  ∀ (x : Nibble) (s : State),
    ∃ t, exec (.addIndex x) s = .next t ∧ t.i.toNat = (s.i.toNat + (s.getV x).toNat) % 65536 ∧ Unchanged [.i] s t

/-- LoadDigitSprite: I takes V[x] * 5, all 8 bits of V[x] used: the address of a glyph of the font at 0x050 exactly when
V[x] is that digit plus 16 (R122; the source's base 0 kept as the spec keeps it, C7, log 23). -/
def Obligations.LoadDigitSpriteResult : Prop :=
  ∀ (x : Nibble) (s : State),
    ∃ t, exec (.loadDigitSprite x) s = .next t ∧ t.i.toNat = (s.getV x).toNat * 5 ∧
      (∀ d : Nibble, t.i.toNat = 0x050 + 5 * d.toNat ↔ (s.getV x).toNat = d.toNat + 16) ∧ Unchanged [.i] s t

/-- StoreBCD with room for three bytes at I: hundreds, tens and ones at I, I + 1, I + 2, every other byte as before, no fault.
Without room: AddressOutOfRange, and exactly the digits whose address exists are stored (R123, R154; the partial stores are
the spec's decision D10, log 7). Memory is in its canonical form, as every step keeps it. -/
def Obligations.StoreBCDResult : Prop :=
  (∀ (x : Nibble) (s : State), s.memWf → s.i.toNat + 2 ≤ 4095 →
    ∃ t, exec (.storeBCD x) s = .next t ∧ (t.byteAt s.indexBase).toNat = (s.getV x).toNat / 100 ∧
      (t.byteAt (s.indexBase + 1)).toNat = (s.getV x).toNat / 10 % 10 ∧
      (t.byteAt (s.indexBase + 2)).toNat = (s.getV x).toNat % 10 ∧
      (∀ a, (a < s.indexBase ∨ s.indexBase + 2 < a) → t.byteAt a = s.byteAt a) ∧ Unchanged [.mem] s t) ∧
  ∀ (x : Nibble) (s : State), s.memWf → 4095 < s.i.toNat + 2 →
    ∃ t, exec (.storeBCD x) s = .next t ∧ t.err = some .addressOutOfRange ∧
      (∀ j (h : j < (bcdDigits (s.getV x)).length), s.indexBase + j ≤ 4095 →
        t.byteAt (s.indexBase + j) = (bcdDigits (s.getV x))[j]) ∧
      (∀ a, (a < s.indexBase ∨ 4095 < a) → t.byteAt a = s.byteAt a) ∧ Unchanged [.mem, .err] s t

/-- RegDump with count x and room for x bytes at I (or x = 0): V[j] at I + j for every j below x, V[x] itself not stored,
every other byte as before, no fault. Without room: AddressOutOfRange, and exactly the registers whose address exists are
stored (R124, R154; decision D10, log 7). -/
def Obligations.RegDumpResult : Prop :=
  (∀ (x : Nibble) (s : State), s.memWf → (x = 0 ∨ s.i.toNat + x.toNat ≤ 4096) →
    ∃ t, exec (.regDump x) s = .next t ∧ (∀ j, j < x.toNat → t.byteAt (s.indexBase + j) = s.getV (BitVec.ofNat 4 j)) ∧
      (∀ a, (a < s.indexBase ∨ s.indexBase + x.toNat ≤ a) → t.byteAt a = s.byteAt a) ∧ Unchanged [.mem] s t) ∧
  ∀ (x : Nibble) (s : State), s.memWf → x ≠ 0 → 4096 < s.i.toNat + x.toNat →
    ∃ t, exec (.regDump x) s = .next t ∧ t.err = some .addressOutOfRange ∧
      (∀ j, j < x.toNat → s.indexBase + j ≤ 4095 → t.byteAt (s.indexBase + j) = s.getV (BitVec.ofNat 4 j)) ∧
      (∀ a, (a < s.indexBase ∨ 4095 < a) → t.byteAt a = s.byteAt a) ∧ Unchanged [.mem, .err] s t

/-- RegLoad with count x and x bytes in range at I (or x = 0): V[j] takes the byte at I + j for every j below x, V[x] to V[15]
keep their values, no fault. Else: AddressOutOfRange, and exactly the registers whose address exists are loaded (R125,
R154; decision D10, log 7). -/
def Obligations.RegLoadResult : Prop :=
  (∀ (x : Nibble) (s : State), (x = 0 ∨ s.i.toNat + x.toNat ≤ 4096) →
    ∃ t, exec (.regLoad x) s = .next t ∧
      (∀ q : Nibble, t.getV q = if q.toNat < x.toNat then s.byteAt (s.indexBase + q.toNat) else s.getV q) ∧
      Unchanged ((firstRegs x).map .v) s t) ∧
  ∀ (x : Nibble) (s : State), x ≠ 0 → 4096 < s.i.toNat + x.toNat →
    ∃ t, exec (.regLoad x) s = .next t ∧ t.err = some .addressOutOfRange ∧
      (∀ q : Nibble, t.getV q =
        if q.toNat < x.toNat ∧ s.indexBase + q.toNat ≤ 4095 then s.byteAt (s.indexBase + q.toNat) else s.getV q) ∧
      Unchanged (.err :: (firstRegs x).map .v) s t

/-- RegDump and RegLoad round trip: what RegDump x stored, RegLoad x with the same I and memory brings back, whatever the
registers hold meanwhile, for V[0] to V[x-1] and no other (R125). -/
def Obligations.RegDumpRegLoadRoundTrip : Prop :=
  ∀ (x : Nibble) (s t u : State), s.memWf → s.i.toNat + x.toNat ≤ 4096 → exec (.regDump x) s = .next t → u.i = t.i →
    u.mem = t.mem →
      ∃ w, exec (.regLoad x) u = .next w ∧
        ∀ q : Nibble, w.getV q = if q.toNat < x.toNat then s.getV q else u.getV q

/-! ### Framebuffer and display (44_display.md) -/

/-- Coordinates and flat indexes correspond one to one, column index modulo 64, row index / 64 (R130). -/
def Obligations.PixelCoordinatesBijection : Prop :=
  (∀ idx, idx < 2048 → (indexToPos idx).1 < 64 ∧ (indexToPos idx).2 < 32 ∧
    posToIndex (indexToPos idx).1 (indexToPos idx).2 = idx) ∧
  (∀ x y, x < 64 → y < 32 → posToIndex x y < 2048 ∧ indexToPos (posToIndex x y) = (x, y)) ∧
  ∀ x y, posToIndex (x + 64) y = posToIndex x y

/-- ClearScreen: every pixel clear, one REPAINT, nothing else (R131; that REPAINT pulses is the spec's decision D14,
log 15). -/
def Obligations.ClearScreenResult : Prop :=
  ∀ s : State, ∃ t, exec .clearScreen s = .next t ∧ (∀ idx, pixel t.fb idx = false) ∧
    t.env.repaints = s.env.repaints + 1 ∧ Unchanged [.fb, .repaints] s t

/-- drawSprite, pixel by pixel: a pixel is flipped exactly when the sprite has a 1 bit over it (columns wrap, rows below the
screen are clipped), and the collision is 1 exactly when some pixel that was set lies under a 1 bit (R132). -/
def Obligations.SpriteCompositing : Prop :=
  ∀ (px py : Nat) (rows : List Byte) (f : BitVec 2048),
    (∀ idx, idx < 2048 → pixel (drawSprite px py rows f).1 idx = (pixel f idx ^^ spriteBit px py rows idx)) ∧
    ((drawSprite px py rows f).2 = true ↔ ∃ idx, idx < 2048 ∧ pixel f idx = true ∧ spriteBit px py rows idx = true)

/-- DrawSprite: with its n bytes in range (or n = 0), the framebuffer takes the sprite of the bytes at I at the old V[x],
V[y], VF takes the collision, REPAINT pulses once, and nothing else changes; else AddressOutOfRange is latched and nothing
else changes (R133; that all bytes are read first is the spec's decision D23, log 21). -/
def Obligations.DrawSpriteResult : Prop :=
  (∀ (x y n : Nibble) (s : State), (n = 0 ∨ s.i.toNat + n.toNat ≤ 4096) →
    ∃ t rows, exec (.drawSprite x y n) s = .next t ∧ rows = (List.range n.toNat).map (fun k => s.byteAt (s.indexBase + k)) ∧
      (∀ idx, idx < 2048 →
        pixel t.fb idx = (pixel s.fb idx ^^ spriteBit (s.getV x).toNat (s.getV y).toNat rows idx)) ∧
      (t.getV vf = 1 ∧ (∃ idx, idx < 2048 ∧ pixel s.fb idx = true ∧
          spriteBit (s.getV x).toNat (s.getV y).toNat rows idx = true) ∨
        t.getV vf = 0 ∧ ∀ idx, idx < 2048 → pixel s.fb idx = true →
          spriteBit (s.getV x).toNat (s.getV y).toNat rows idx = false) ∧
      t.env.repaints = s.env.repaints + 1 ∧ Unchanged [.fb, .v vf, .repaints] s t) ∧
  ∀ (x y n : Nibble) (s : State), n ≠ 0 → 4096 < s.i.toNat + n.toNat →
    ∃ t, exec (.drawSprite x y n) s = .next t ∧ t.err = some .addressOutOfRange ∧ Unchanged [.err] s t

/-- Drawing a sprite twice restores the framebuffer, and the second draw collides exactly when some 1 bit of the sprite lay
over a pixel that was clear before the first (R134 (a)). -/
def Obligations.SpriteTwiceRestores : Prop :=
  ∀ (px py : Nat) (rows : List Byte) (f : BitVec 2048),
    (drawSprite px py rows (drawSprite px py rows f).1).1 = f ∧
    ((drawSprite px py rows (drawSprite px py rows f).1).2 = true ↔
      ∃ idx, idx < 2048 ∧ spriteBit px py rows idx = true ∧ pixel f idx = false)

/-- The start column wraps and rows do not: a sprite 64 columns further right is the same drawing; rows that would fall below
row 31 are not drawn; and a sprite that starts below the screen draws nothing (R132, R134 (b), (c)). -/
def Obligations.SpriteWrapsAcrossClipsBelow : Prop :=
  ∀ (px py : Nat) (rows : List Byte) (f : BitVec 2048),
    drawSprite (px + 64) py rows f = drawSprite px py rows f ∧
    drawSprite px py rows f = drawSprite px py (rows.take (32 - py)) f ∧
    (32 ≤ py → drawSprite px py rows f = (f, false))

/-! ### Keypad and timers (45_keypad_timers.md, 60_exceptions.md) -/

/-- The keypad skips, Ex9E and ExA1: SkipIfPressed skips exactly when a key is pressed and its value is the whole of V[x],
SkipIfNotPressed exactly when not; KEY is sampled once (the model counts its samples), no flag, no fault, nothing else
changes (R140, R141, R146). -/
def Obligations.KeypadSkips : Prop :=
  ∀ (x : Nibble) (s : State),
    (decode (wordXKK 0xE x 0x9E) = .instr (.skipIfPressed x) ∧
      decode (wordXKK 0xE x 0xA1) = .instr (.skipIfNotPressed x)) ∧
    (∃ t, exec (.skipIfPressed x) s = .next t ∧
      ((∃ k, s.keyNow = some k ∧ k.toNat = (s.getV x).toNat) → t.pc = s.pc + 2) ∧
      (¬(∃ k, s.keyNow = some k ∧ k.toNat = (s.getV x).toNat) → t.pc = s.pc) ∧
      t.env.draws = s.env.draws + 1 ∧ Unchanged [.pc, .draws] s t) ∧
    (∃ t, exec (.skipIfNotPressed x) s = .next t ∧
      ((∃ k, s.keyNow = some k ∧ k.toNat = (s.getV x).toNat) → t.pc = s.pc) ∧
      (¬(∃ k, s.keyNow = some k ∧ k.toNat = (s.getV x).toNat) → t.pc = s.pc + 2) ∧
      t.env.draws = s.env.draws + 1 ∧ Unchanged [.pc, .draws] s t)

/-- WaitKey: a key that is held completes it at once, V[x] taking its value; with none the core suspends, WAIT taking x, and
nothing else changes (R142; the latch WAIT is the spec's decision D8, log 16). -/
def Obligations.WaitKeyResult : Prop :=
  ∀ (x : Nibble) (s : State),
    ∃ t, exec (.waitKey x) s = .next t ∧ t.pc = s.pc ∧ t.env.draws = s.env.draws + 1 ∧
      (∀ k, s.keyNow = some k → (t.getV x).toNat = k.toNat ∧ t.wait = none ∧ Unchanged [.v x, .wait, .draws] s t) ∧
      (s.keyNow = none → t.wait = some x ∧ Unchanged [.wait, .draws] s t)

/-- A Step of a waiting core fetches nothing: with no key nothing changes but the model's count of samples; a key goes to the
waiting register and WAIT is cleared; PC does not move (R82, R142; decision D8, log 16). -/
def Obligations.WaitingStepPollsKey : Prop :=
  ∀ (s : State) (w : Nibble), s.err = none → s.wait = some w →
    ∃ t, coreStep s = .next t ∧ t.pc = s.pc ∧
      (∀ k, s.keyNow = some k → (t.getV w).toNat = k.toNat ∧ t.wait = none ∧ Unchanged [.v w, .wait, .draws] s t) ∧
      (s.keyNow = none → Unchanged [.draws] s t)

/-- ReadDelay, SetDelay, SetSound: V[x] takes DT; DT takes V[x]; ST takes V[x]; nothing else changes (R143, R144, R145). -/
def Obligations.TimerInstructions : Prop :=
  ∀ (x : Nibble) (s : State),
    (∃ t, exec (.readDelay x) s = .next t ∧ t.getV x = s.dt ∧ Unchanged [.v x] s t) ∧
    (∃ t, exec (.setDelay x) s = .next t ∧ t.dt = s.getV x ∧ Unchanged [.dt] s t) ∧
    (∃ t, exec (.setSound x) s = .next t ∧ t.st = s.getV x ∧ Unchanged [.st] s t)

/-- TimerTicks: n of them take n from each timer and stop at zero, and change nothing else; the model's `timerTicks n` is n
TimerTicks in a row (R164). -/
def Obligations.TimersCountDownToZero : Prop :=
  ∀ (s : State) (n : Nat),
    (State.timerTick^[n] s).dt.toNat = s.dt.toNat - n ∧ (State.timerTick^[n] s).st.toNat = s.st.toNat - n ∧
      Unchanged [.dt, .st] s (State.timerTick^[n] s) ∧ s.timerTicks n = State.timerTick^[n] s

/-- The event TimerTick happens whatever the core is doing, suspended in a WaitKey or halted included: it takes one from each
timer that is not zero and changes nothing else of the core (R164; that a halted core's timers run is the spec's decision
D11, log 22). -/
def Obligations.TimerTickEventNeverHeld : Prop :=
  ∀ (s : State) (rest : List Event), s.env.sched = .timerTick :: rest →
    ∃ t, step s = .next t ∧ t.dt.toNat = s.dt.toNat - 1 ∧ t.st.toNat = s.st.toNat - 1 ∧ t.env.sched = rest ∧
      ∀ p, p ∉ [Part.dt, Part.st] → p.same s t

/-! ### Memory (20_memory.md) -/

/-- `MemRead(a, 2)`: big-endian where both addresses are in range, AddressOutOfRange (none) else, 4095 included (R42). -/
def Obligations.MemReadWordBigEndian : Prop :=
  ∀ (s : State) (a : Nat),
    (a + 1 ≤ 4095 → ∃ w, s.memReadWord a = some w ∧ w.toNat = 256 * (s.byteAt a).toNat + (s.byteAt (a + 1)).toNat) ∧
    (4095 < a + 1 → s.memReadWord a = none)

/-- `MemWrite(a, 1, b)`: the cell takes the byte and every other cell keeps its own; above 4095 it is AddressOutOfRange (none).
Memory is in its canonical form, as every step keeps it (R43, R46). -/
def Obligations.MemWriteThenRead : Prop :=
  ∀ (s : State) (a : Nat) (b : Byte), s.memWf →
    (a ≤ 4095 → ∃ t, s.memWrite a b = some t ∧ t.memRead a = some b ∧ (∀ c, c ≠ a → t.memRead c = s.memRead c) ∧
      Unchanged [.mem] s t) ∧
    (4095 < a → s.memWrite a b = none ∧ s.memRead a = none)

/-- Instructions are fetched from the memory stores write: two bytes stored by RegDump where the next instruction stands are
what the next Step decodes (R53). -/
def Obligations.StoredInstructionIsFetched : Prop :=
  ∀ (s t : State), s.memWf → s.i = s.pc → s.pc.toNat ≤ 4094 → exec (.regDump 2) s = .next t →
    t.fetch = some (wordOfBytes (s.getV 0) (s.getV 1))

/-! ### Whole-machine rules -/

/-- Which instructions write which state: memory StoreBCD and RegDump alone; the stack Call and Return; the framebuffer
ClearScreen and DrawSprite; I LoadIndex, AddIndex and LoadDigitSprite; DT SetDelay; ST SetSound; WAIT WaitKey (R55, R12,
R15, R18, R19, R21, R22). -/
def Obligations.WhoWritesWhat : Prop :=
  ∀ (i : Instr) (s t : State), exec i s = .next t →
    (t.mem ≠ s.mem → i.mnemonic ∈ ["StoreBCD", "RegDump"]) ∧
    (¬(t.depth = s.depth ∧ t.stack = s.stack) → i.mnemonic ∈ ["Call", "Return"]) ∧
    (t.fb ≠ s.fb → i.mnemonic ∈ ["ClearScreen", "DrawSprite"]) ∧
    (t.i ≠ s.i → i.mnemonic ∈ ["LoadIndex", "AddIndex", "LoadDigitSprite"]) ∧
    (t.dt ≠ s.dt → i.mnemonic = "SetDelay") ∧ (t.st ≠ s.st → i.mnemonic = "SetSound") ∧
    (t.wait ≠ s.wait → i.mnemonic = "WaitKey")

/-- VF as a flag: an instruction that does not name register 15 changes VF only if it is one of the six flag writers, and
then it leaves 0 or 1 there (R11). -/
def Obligations.FlagWriters : Prop :=
  ∀ (s t : State) (x y n : Nibble) (kk : Byte) (nnn : Imm12), x ≠ vf →
    (∀ i ∈ [Instr.skipEqImm x kk, .skipNeImm x kk, .skipEqReg x y n, .loadImm x kk, .addImm x kk, .copy x y, .or x y,
        .and x y, .xor x y, .skipNeReg x y n, .randMaskImm x kk, .skipIfPressed x, .skipIfNotPressed x, .readDelay x,
        .waitKey x, .setDelay x, .setSound x, .addIndex x, .loadDigitSprite x, .storeBCD x, .regDump x, .regLoad x,
        .clearScreen, .ret, .jump nnn, .call nnn, .loadIndex nnn, .jumpPlusV0 nnn],
      exec i s = .next t → t.getV vf = s.getV vf) ∧
    (∀ i ∈ [Instr.add x y, .sub x y, .subReverse x y, .shiftRight x y, .shiftLeft x y], exec i s = .next t →
      t.getV vf = 0 ∨ t.getV vf = 1) ∧
    (exec (.drawSprite x y n) s = .next t → t.err = s.err → s.err = none → t.getV vf = 0 ∨ t.getV vf = 1)

/-- Every step keeps memory in its canonical form: addresses rise and exist, and no entry equals the reset contents. -/
def Obligations.StepKeepsMemoryCanonical : Prop := ∀ s t : State, s.memWf → step s = .next t → t.memWf

/-- Every step keeps PC at most 0x10FE and every return address on the stack at most 0x1000, so the 16-bit PC never overflows
(R13, R92). -/
def Obligations.StepKeepsPcBounded : Prop := ∀ s t : State, s.pcBounded → step s = .next t → t.pcBounded

/-- Every step keeps the core from being both halted and waiting (R80, R82). -/
def Obligations.StepKeepsOneLatch : Prop := ∀ s t : State, s.oneLatch → step s = .next t → t.oneLatch

/-- The reset state meets the three invariants, whatever the parameter FONT. -/
def Obligations.ResetMeetsInvariants : Prop :=
  (State.reset.memWf ∧ State.reset.pcBounded ∧ State.reset.oneLatch) ∧
    ∀ f : FontTable, (State.resetWith f).memWf ∧ (State.resetWith f).pcBounded ∧ (State.resetWith f).oneLatch

/-- What reset leaves, for every value of the parameter FONT (R6, R181, R182). The source itself states only PC at 0x200, the
stack empty, and that the font stands at 0x050 to 0x09F. The rest is the spec's or the model's choice: FONT a parameter, and
its default table in `State.reset` (D4, log 2); zero in memory outside the font, V, I, DT, ST and FB (D3, log 1); WAIT none
(D8, log 16); ERR none (D9, log 6); and the status OK, a function of ERR and WAIT (R87, D25, log 31). -/
def Obligations.ResetValues : Prop :=
  State.resetWith defaultFont = State.reset ∧
  (∀ k (h : k < 80), defaultFont[k] = font.getD k 0) ∧
  ∀ f : FontTable,
    (State.resetWith f).pc = 0x0200 ∧ (State.resetWith f).sp = -1 ∧
      (∀ k (h : k < 80), (State.resetWith f).byteAt (0x050 + k) = f[k]) ∧
      (∀ a, (a < 0x050 ∨ 0x09F < a) → (State.resetWith f).byteAt a = 0) ∧ (∀ q, (State.resetWith f).getV q = 0) ∧
      (State.resetWith f).i = 0 ∧ (State.resetWith f).dt = 0 ∧ (State.resetWith f).st = 0 ∧
      (∀ idx, pixel (State.resetWith f).fb idx = false) ∧ (State.resetWith f).wait = none ∧
      (State.resetWith f).err = none ∧ (State.resetWith f).status = .ok

/-- The event Reset leaves every piece of the core's state at its reset value, memory seeded with the machine's FONT, halted or
waiting core included, and a Load legal again (R180, R6 (a); the host's own inputs and schedule stay, log 30). No step changes
the parameter FONT (log 2). -/
def Obligations.ResetEventRestoresReset : Prop :=
  (∀ (s : State) (rest : List Event), s.env.sched = .reset :: rest →
    ∃ t, step s = .next t ∧ t = { State.resetWith s.env.font with env := t.env } ∧
      (∀ k (h : k < 80), t.byteAt (0x050 + k) = s.env.font[k]) ∧ t.env.loadOpen = true ∧ t.env.sched = rest) ∧
  ∀ s t : State, step s = .next t → t.env.font = s.env.font

/-- The event Load, in its window: a program of at most 3584 bytes stands verbatim from 0x200, every other byte as before;
a longer one is RomTooLarge and leaves memory as it was; ERR is not set either way (R184, R185; that Load has a window is
the spec's decision D15, log 14). -/
def Obligations.LoadPlacesProgram : Prop :=
  ∀ (s : State) (bytes : List Byte) (rest : List Event), s.memWf → s.env.sched = .load bytes :: rest →
    s.env.loadOpen = true →
    ∃ t, step s = .next t ∧
      (∀ p, p ∉ [Part.mem] → p.same s t) ∧
      (bytes.length ≤ 3584 → t.env.loadStatus = some .ok ∧
        (∀ k (h : k < bytes.length), t.byteAt (0x200 + k) = bytes[k]) ∧
        ∀ a, (a < 0x200 ∨ 0x200 + bytes.length ≤ a) → t.byteAt a = s.byteAt a) ∧
      (3584 < bytes.length → t.env.loadStatus = some .romTooLarge ∧ t.mem = s.mem)

/-- A run that has ended normally stays where it is: a Step there changes nothing (R188; the definition of an ended run is
the spec's decision D26). -/
def Obligations.EndedRunStands : Prop := ∀ s : State, s.endedNormally → coreStep s = .next s

/-- Stack cells above SP cannot be observed: two states that agree but for dead cells take the same step to two states that
agree but for dead cells (R183). -/
def Obligations.DeadStackCellsUnobservable : Prop :=
  ∀ s t s' : State, SameButDeadCells s t → step s = .next s' → ∃ t', step t = .next t' ∧ SameButDeadCells s' t'

/-- KEY matters only to SkipIfPressed, SkipIfNotPressed and WaitKey, RAND only to RandMaskImm: every other instruction does
the same whatever they are held at (R88). -/
def Obligations.InputsMatterToTheirReaders : Prop :=
  (∀ (i : Instr) (s t s' : State), i.mnemonic ∉ ["SkipIfPressed", "SkipIfNotPressed", "WaitKey"] → SameButKey s t →
    exec i s = .next s' → ∃ t', exec i t = .next t' ∧ SameButKey s' t') ∧
  ∀ (i : Instr) (s t s' : State), i.mnemonic ≠ "RandMaskImm" → SameButRand s t →
    exec i s = .next s' → ∃ t', exec i t = .next t' ∧ SameButRand s' t'
end

