-- ==== Sys2Proof/Laws/Decode.lean ====
section
/-! SUPPORT. Laws of the instruction word: the fields of a word of each format, a word from its fields, and what the decoder
answers for each high nibble (30_encoding.md R61, R64). -/

namespace Sys2Proof

/-! ### The fields of a word written from them -/

@[simp] theorem fieldOp_wordNNN (op : Nibble) (nnn : Imm12) : fieldOp (wordNNN op nnn) = op := by
  refine BitVec.eq_of_getLsbD_eq fun i hi => ?_
  simp only [fieldOp, wordNNN, BitVec.getLsbD_extractLsb', BitVec.getLsbD_append]
  interval_cases i <;> simp

@[simp] theorem fieldNNN_wordNNN (op : Nibble) (nnn : Imm12) : fieldNNN (wordNNN op nnn) = nnn := by
  refine BitVec.eq_of_getLsbD_eq fun i hi => ?_
  simp only [fieldNNN, wordNNN, BitVec.getLsbD_extractLsb', BitVec.getLsbD_append]
  interval_cases i <;> simp

@[simp] theorem fieldOp_wordXKK (op x : Nibble) (kk : Byte) : fieldOp (wordXKK op x kk) = op := by
  refine BitVec.eq_of_getLsbD_eq fun i hi => ?_
  simp only [fieldOp, wordXKK, BitVec.getLsbD_extractLsb', BitVec.getLsbD_append]
  interval_cases i <;> simp

@[simp] theorem fieldX_wordXKK (op x : Nibble) (kk : Byte) : fieldX (wordXKK op x kk) = x := by
  refine BitVec.eq_of_getLsbD_eq fun i hi => ?_
  simp only [fieldX, wordXKK, BitVec.getLsbD_extractLsb', BitVec.getLsbD_append]
  interval_cases i <;> simp

@[simp] theorem fieldKK_wordXKK (op x : Nibble) (kk : Byte) : fieldKK (wordXKK op x kk) = kk := by
  refine BitVec.eq_of_getLsbD_eq fun i hi => ?_
  simp only [fieldKK, wordXKK, BitVec.getLsbD_extractLsb', BitVec.getLsbD_append]
  interval_cases i <;> simp

@[simp] theorem fieldOp_wordXYN (op x y n : Nibble) : fieldOp (wordXYN op x y n) = op := by
  refine BitVec.eq_of_getLsbD_eq fun i hi => ?_
  simp only [fieldOp, wordXYN, BitVec.getLsbD_extractLsb', BitVec.getLsbD_append]
  interval_cases i <;> simp

@[simp] theorem fieldX_wordXYN (op x y n : Nibble) : fieldX (wordXYN op x y n) = x := by
  refine BitVec.eq_of_getLsbD_eq fun i hi => ?_
  simp only [fieldX, wordXYN, BitVec.getLsbD_extractLsb', BitVec.getLsbD_append]
  interval_cases i <;> simp

@[simp] theorem fieldY_wordXYN (op x y n : Nibble) : fieldY (wordXYN op x y n) = y := by
  refine BitVec.eq_of_getLsbD_eq fun i hi => ?_
  simp only [fieldY, wordXYN, BitVec.getLsbD_extractLsb', BitVec.getLsbD_append]
  interval_cases i <;> simp

@[simp] theorem fieldN_wordXYN (op x y n : Nibble) : fieldN (wordXYN op x y n) = n := by
  refine BitVec.eq_of_getLsbD_eq fun i hi => ?_
  simp only [fieldN, wordXYN, BitVec.getLsbD_extractLsb', BitVec.getLsbD_append]
  interval_cases i <;> simp

/-! ### A word from its fields -/

theorem wordNNN_fields (w : Word) : wordNNN (fieldOp w) (fieldNNN w) = w := by
  refine BitVec.eq_of_getLsbD_eq fun i hi => ?_
  simp only [wordNNN, fieldOp, fieldNNN, BitVec.getLsbD_extractLsb', BitVec.getLsbD_append]
  interval_cases i <;> simp

theorem wordXKK_fields (w : Word) : wordXKK (fieldOp w) (fieldX w) (fieldKK w) = w := by
  refine BitVec.eq_of_getLsbD_eq fun i hi => ?_
  simp only [wordXKK, fieldOp, fieldX, fieldKK, BitVec.getLsbD_extractLsb', BitVec.getLsbD_append]
  interval_cases i <;> simp

theorem wordXYN_fields (w : Word) : wordXYN (fieldOp w) (fieldX w) (fieldY w) (fieldN w) = w := by
  refine BitVec.eq_of_getLsbD_eq fun i hi => ?_
  simp only [wordXYN, fieldOp, fieldX, fieldY, fieldN, BitVec.getLsbD_extractLsb', BitVec.getLsbD_append]
  interval_cases i <;> simp

/-! ### The decoder, high nibble by high nibble (R64) -/

/-- A word whose high nibble is not 0 is neither of the two exact matches. -/
theorem ne_fixed_of_op {w : Word} (h : fieldOp w ≠ 0) : w ≠ 0x00E0 ∧ w ≠ 0x00EE := by
  constructor <;> (rintro rfl; exact h (by decide))

theorem decode_op1 {w : Word} (h : fieldOp w = 0x1) : decode w = .instr (.jump (fieldNNN w)) := by
  have hn := ne_fixed_of_op (w := w) (by rw [h]; decide)
  unfold decode
  rw [if_neg hn.1, if_neg hn.2]
  simp [h]

theorem decode_op2 {w : Word} (h : fieldOp w = 0x2) : decode w = .instr (.call (fieldNNN w)) := by
  have hn := ne_fixed_of_op (w := w) (by rw [h]; decide)
  unfold decode
  rw [if_neg hn.1, if_neg hn.2]
  simp [h]

theorem decode_op3 {w : Word} (h : fieldOp w = 0x3) : decode w = .instr (.skipEqImm (fieldX w) (fieldKK w)) := by
  have hn := ne_fixed_of_op (w := w) (by rw [h]; decide)
  unfold decode
  rw [if_neg hn.1, if_neg hn.2]
  simp [h]

theorem decode_op4 {w : Word} (h : fieldOp w = 0x4) : decode w = .instr (.skipNeImm (fieldX w) (fieldKK w)) := by
  have hn := ne_fixed_of_op (w := w) (by rw [h]; decide)
  unfold decode
  rw [if_neg hn.1, if_neg hn.2]
  simp [h]

theorem decode_op5 {w : Word} (h : fieldOp w = 0x5) : decode w = .instr (.skipEqReg (fieldX w) (fieldY w) (fieldN w)) := by
  have hn := ne_fixed_of_op (w := w) (by rw [h]; decide)
  unfold decode
  rw [if_neg hn.1, if_neg hn.2]
  simp [h]

theorem decode_op6 {w : Word} (h : fieldOp w = 0x6) : decode w = .instr (.loadImm (fieldX w) (fieldKK w)) := by
  have hn := ne_fixed_of_op (w := w) (by rw [h]; decide)
  unfold decode
  rw [if_neg hn.1, if_neg hn.2]
  simp [h]

theorem decode_op7 {w : Word} (h : fieldOp w = 0x7) : decode w = .instr (.addImm (fieldX w) (fieldKK w)) := by
  have hn := ne_fixed_of_op (w := w) (by rw [h]; decide)
  unfold decode
  rw [if_neg hn.1, if_neg hn.2]
  simp [h]

theorem decode_op8 {w : Word} (h : fieldOp w = 0x8) : decode w = decode8 w := by
  have hn := ne_fixed_of_op (w := w) (by rw [h]; decide)
  unfold decode
  rw [if_neg hn.1, if_neg hn.2]
  simp [h]

theorem decode_op9 {w : Word} (h : fieldOp w = 0x9) : decode w = .instr (.skipNeReg (fieldX w) (fieldY w) (fieldN w)) := by
  have hn := ne_fixed_of_op (w := w) (by rw [h]; decide)
  unfold decode
  rw [if_neg hn.1, if_neg hn.2]
  simp [h]

theorem decode_opA {w : Word} (h : fieldOp w = 0xA) : decode w = .instr (.loadIndex (fieldNNN w)) := by
  have hn := ne_fixed_of_op (w := w) (by rw [h]; decide)
  unfold decode
  rw [if_neg hn.1, if_neg hn.2]
  simp [h]

theorem decode_opB {w : Word} (h : fieldOp w = 0xB) : decode w = .instr (.jumpPlusV0 (fieldNNN w)) := by
  have hn := ne_fixed_of_op (w := w) (by rw [h]; decide)
  unfold decode
  rw [if_neg hn.1, if_neg hn.2]
  simp [h]

theorem decode_opC {w : Word} (h : fieldOp w = 0xC) : decode w = .instr (.randMaskImm (fieldX w) (fieldKK w)) := by
  have hn := ne_fixed_of_op (w := w) (by rw [h]; decide)
  unfold decode
  rw [if_neg hn.1, if_neg hn.2]
  simp [h]

theorem decode_opD {w : Word} (h : fieldOp w = 0xD) : decode w = .instr (.drawSprite (fieldX w) (fieldY w) (fieldN w)) := by
  have hn := ne_fixed_of_op (w := w) (by rw [h]; decide)
  unfold decode
  rw [if_neg hn.1, if_neg hn.2]
  simp [h]

theorem decode_opE {w : Word} (h : fieldOp w = 0xE) : decode w = decodeE w := by
  have hn := ne_fixed_of_op (w := w) (by rw [h]; decide)
  unfold decode
  rw [if_neg hn.1, if_neg hn.2]
  simp [h]

theorem decode_opF {w : Word} (h : fieldOp w = 0xF) : decode w = decodeF w := by
  have hn := ne_fixed_of_op (w := w) (by rw [h]; decide)
  unfold decode
  rw [if_neg hn.1, if_neg hn.2]
  simp [h]

/-- With high nibble 0 a word is one of the two exact matches or Unsupported. -/
theorem decode_op0 {w : Word} (h : fieldOp w = 0x0) :
    decode w = if w = 0x00E0 then .instr .clearScreen else if w = 0x00EE then .instr .ret else .unsupported := by
  simp [decode, h]

/-- A word is one of sixteen by its high nibble. -/
theorem fieldOp_cases (w : Word) : fieldOp w = 0x0 ∨ fieldOp w = 0x1 ∨ fieldOp w = 0x2 ∨ fieldOp w = 0x3 ∨ fieldOp w = 0x4 ∨
    fieldOp w = 0x5 ∨ fieldOp w = 0x6 ∨ fieldOp w = 0x7 ∨ fieldOp w = 0x8 ∨ fieldOp w = 0x9 ∨ fieldOp w = 0xA ∨
    fieldOp w = 0xB ∨ fieldOp w = 0xC ∨ fieldOp w = 0xD ∨ fieldOp w = 0xE ∨ fieldOp w = 0xF := by
  generalize fieldOp w = c
  revert c
  decide

end Sys2Proof
end

