-- ==== Sys2Proof/Laws/State.lean ====
section
/-! SUPPORT. One lemma per field per update of the state: what the update leaves in the field. A later proof rewrites with
these and never unfolds a record update. -/

namespace Sys2Proof.Machine

variable (s : State)

/-! ### setV -/

@[simp] theorem State.setV_i (r : Nibble) (b : Byte) : (s.setV r b).i = s.i := rfl
@[simp] theorem State.setV_pc (r : Nibble) (b : Byte) : (s.setV r b).pc = s.pc := rfl
@[simp] theorem State.setV_stack (r : Nibble) (b : Byte) : (s.setV r b).stack = s.stack := rfl
@[simp] theorem State.setV_depth (r : Nibble) (b : Byte) : (s.setV r b).depth = s.depth := rfl
@[simp] theorem State.setV_dt (r : Nibble) (b : Byte) : (s.setV r b).dt = s.dt := rfl
@[simp] theorem State.setV_st (r : Nibble) (b : Byte) : (s.setV r b).st = s.st := rfl
@[simp] theorem State.setV_mem (r : Nibble) (b : Byte) : (s.setV r b).mem = s.mem := rfl
@[simp] theorem State.setV_fb (r : Nibble) (b : Byte) : (s.setV r b).fb = s.fb := rfl
@[simp] theorem State.setV_wait (r : Nibble) (b : Byte) : (s.setV r b).wait = s.wait := rfl
@[simp] theorem State.setV_err (r : Nibble) (b : Byte) : (s.setV r b).err = s.err := rfl
@[simp] theorem State.setV_env (r : Nibble) (b : Byte) : (s.setV r b).env = s.env := rfl
@[simp] theorem State.setV_byteAt (r : Nibble) (b : Byte) (c : Nat) : (s.setV r b).byteAt c = s.byteAt c := rfl
@[simp] theorem State.setV_keyNow (r : Nibble) (b : Byte) : (s.setV r b).keyNow = s.keyNow := rfl
@[simp] theorem State.setV_randNow (r : Nibble) (b : Byte) : (s.setV r b).randNow = s.randNow := rfl
@[simp] theorem State.setV_ticksNow (r : Nibble) (b : Byte) : (s.setV r b).ticksNow = s.ticksNow := rfl

/-! ### setPc -/

@[simp] theorem State.setPc_v (a : Word) : (s.setPc a).v = s.v := rfl
@[simp] theorem State.setPc_i (a : Word) : (s.setPc a).i = s.i := rfl
@[simp] theorem State.setPc_pc (a : Word) : (s.setPc a).pc = a := rfl
@[simp] theorem State.setPc_stack (a : Word) : (s.setPc a).stack = s.stack := rfl
@[simp] theorem State.setPc_depth (a : Word) : (s.setPc a).depth = s.depth := rfl
@[simp] theorem State.setPc_dt (a : Word) : (s.setPc a).dt = s.dt := rfl
@[simp] theorem State.setPc_st (a : Word) : (s.setPc a).st = s.st := rfl
@[simp] theorem State.setPc_mem (a : Word) : (s.setPc a).mem = s.mem := rfl
@[simp] theorem State.setPc_fb (a : Word) : (s.setPc a).fb = s.fb := rfl
@[simp] theorem State.setPc_wait (a : Word) : (s.setPc a).wait = s.wait := rfl
@[simp] theorem State.setPc_err (a : Word) : (s.setPc a).err = s.err := rfl
@[simp] theorem State.setPc_env (a : Word) : (s.setPc a).env = s.env := rfl
@[simp] theorem State.setPc_getV (a : Word) (q : Nibble) : (s.setPc a).getV q = s.getV q := rfl
@[simp] theorem State.setPc_byteAt (a : Word) (c : Nat) : (s.setPc a).byteAt c = s.byteAt c := rfl
@[simp] theorem State.setPc_keyNow (a : Word) : (s.setPc a).keyNow = s.keyNow := rfl
@[simp] theorem State.setPc_randNow (a : Word) : (s.setPc a).randNow = s.randNow := rfl
@[simp] theorem State.setPc_ticksNow (a : Word) : (s.setPc a).ticksNow = s.ticksNow := rfl

/-! ### setI -/

@[simp] theorem State.setI_v (a : Word) : (s.setI a).v = s.v := rfl
@[simp] theorem State.setI_i (a : Word) : (s.setI a).i = a := rfl
@[simp] theorem State.setI_pc (a : Word) : (s.setI a).pc = s.pc := rfl
@[simp] theorem State.setI_stack (a : Word) : (s.setI a).stack = s.stack := rfl
@[simp] theorem State.setI_depth (a : Word) : (s.setI a).depth = s.depth := rfl
@[simp] theorem State.setI_dt (a : Word) : (s.setI a).dt = s.dt := rfl
@[simp] theorem State.setI_st (a : Word) : (s.setI a).st = s.st := rfl
@[simp] theorem State.setI_mem (a : Word) : (s.setI a).mem = s.mem := rfl
@[simp] theorem State.setI_fb (a : Word) : (s.setI a).fb = s.fb := rfl
@[simp] theorem State.setI_wait (a : Word) : (s.setI a).wait = s.wait := rfl
@[simp] theorem State.setI_err (a : Word) : (s.setI a).err = s.err := rfl
@[simp] theorem State.setI_env (a : Word) : (s.setI a).env = s.env := rfl
@[simp] theorem State.setI_getV (a : Word) (q : Nibble) : (s.setI a).getV q = s.getV q := rfl
@[simp] theorem State.setI_byteAt (a : Word) (c : Nat) : (s.setI a).byteAt c = s.byteAt c := rfl
@[simp] theorem State.setI_keyNow (a : Word) : (s.setI a).keyNow = s.keyNow := rfl
@[simp] theorem State.setI_randNow (a : Word) : (s.setI a).randNow = s.randNow := rfl
@[simp] theorem State.setI_ticksNow (a : Word) : (s.setI a).ticksNow = s.ticksNow := rfl

/-! ### setDt -/

@[simp] theorem State.setDt_v (b : Byte) : (s.setDt b).v = s.v := rfl
@[simp] theorem State.setDt_i (b : Byte) : (s.setDt b).i = s.i := rfl
@[simp] theorem State.setDt_pc (b : Byte) : (s.setDt b).pc = s.pc := rfl
@[simp] theorem State.setDt_stack (b : Byte) : (s.setDt b).stack = s.stack := rfl
@[simp] theorem State.setDt_depth (b : Byte) : (s.setDt b).depth = s.depth := rfl
@[simp] theorem State.setDt_dt (b : Byte) : (s.setDt b).dt = b := rfl
@[simp] theorem State.setDt_st (b : Byte) : (s.setDt b).st = s.st := rfl
@[simp] theorem State.setDt_mem (b : Byte) : (s.setDt b).mem = s.mem := rfl
@[simp] theorem State.setDt_fb (b : Byte) : (s.setDt b).fb = s.fb := rfl
@[simp] theorem State.setDt_wait (b : Byte) : (s.setDt b).wait = s.wait := rfl
@[simp] theorem State.setDt_err (b : Byte) : (s.setDt b).err = s.err := rfl
@[simp] theorem State.setDt_env (b : Byte) : (s.setDt b).env = s.env := rfl
@[simp] theorem State.setDt_getV (b : Byte) (q : Nibble) : (s.setDt b).getV q = s.getV q := rfl
@[simp] theorem State.setDt_byteAt (b : Byte) (c : Nat) : (s.setDt b).byteAt c = s.byteAt c := rfl
@[simp] theorem State.setDt_keyNow (b : Byte) : (s.setDt b).keyNow = s.keyNow := rfl
@[simp] theorem State.setDt_randNow (b : Byte) : (s.setDt b).randNow = s.randNow := rfl
@[simp] theorem State.setDt_ticksNow (b : Byte) : (s.setDt b).ticksNow = s.ticksNow := rfl

/-! ### setSt -/

@[simp] theorem State.setSt_v (b : Byte) : (s.setSt b).v = s.v := rfl
@[simp] theorem State.setSt_i (b : Byte) : (s.setSt b).i = s.i := rfl
@[simp] theorem State.setSt_pc (b : Byte) : (s.setSt b).pc = s.pc := rfl
@[simp] theorem State.setSt_stack (b : Byte) : (s.setSt b).stack = s.stack := rfl
@[simp] theorem State.setSt_depth (b : Byte) : (s.setSt b).depth = s.depth := rfl
@[simp] theorem State.setSt_dt (b : Byte) : (s.setSt b).dt = s.dt := rfl
@[simp] theorem State.setSt_st (b : Byte) : (s.setSt b).st = b := rfl
@[simp] theorem State.setSt_mem (b : Byte) : (s.setSt b).mem = s.mem := rfl
@[simp] theorem State.setSt_fb (b : Byte) : (s.setSt b).fb = s.fb := rfl
@[simp] theorem State.setSt_wait (b : Byte) : (s.setSt b).wait = s.wait := rfl
@[simp] theorem State.setSt_err (b : Byte) : (s.setSt b).err = s.err := rfl
@[simp] theorem State.setSt_env (b : Byte) : (s.setSt b).env = s.env := rfl
@[simp] theorem State.setSt_getV (b : Byte) (q : Nibble) : (s.setSt b).getV q = s.getV q := rfl
@[simp] theorem State.setSt_byteAt (b : Byte) (c : Nat) : (s.setSt b).byteAt c = s.byteAt c := rfl
@[simp] theorem State.setSt_keyNow (b : Byte) : (s.setSt b).keyNow = s.keyNow := rfl
@[simp] theorem State.setSt_randNow (b : Byte) : (s.setSt b).randNow = s.randNow := rfl
@[simp] theorem State.setSt_ticksNow (b : Byte) : (s.setSt b).ticksNow = s.ticksNow := rfl

/-! ### setWait -/

@[simp] theorem State.setWait_v (w : Option Nibble) : (s.setWait w).v = s.v := rfl
@[simp] theorem State.setWait_i (w : Option Nibble) : (s.setWait w).i = s.i := rfl
@[simp] theorem State.setWait_pc (w : Option Nibble) : (s.setWait w).pc = s.pc := rfl
@[simp] theorem State.setWait_stack (w : Option Nibble) : (s.setWait w).stack = s.stack := rfl
@[simp] theorem State.setWait_depth (w : Option Nibble) : (s.setWait w).depth = s.depth := rfl
@[simp] theorem State.setWait_dt (w : Option Nibble) : (s.setWait w).dt = s.dt := rfl
@[simp] theorem State.setWait_st (w : Option Nibble) : (s.setWait w).st = s.st := rfl
@[simp] theorem State.setWait_mem (w : Option Nibble) : (s.setWait w).mem = s.mem := rfl
@[simp] theorem State.setWait_fb (w : Option Nibble) : (s.setWait w).fb = s.fb := rfl
@[simp] theorem State.setWait_wait (w : Option Nibble) : (s.setWait w).wait = w := rfl
@[simp] theorem State.setWait_err (w : Option Nibble) : (s.setWait w).err = s.err := rfl
@[simp] theorem State.setWait_env (w : Option Nibble) : (s.setWait w).env = s.env := rfl
@[simp] theorem State.setWait_getV (w : Option Nibble) (q : Nibble) : (s.setWait w).getV q = s.getV q := rfl
@[simp] theorem State.setWait_byteAt (w : Option Nibble) (c : Nat) : (s.setWait w).byteAt c = s.byteAt c := rfl
@[simp] theorem State.setWait_keyNow (w : Option Nibble) : (s.setWait w).keyNow = s.keyNow := rfl
@[simp] theorem State.setWait_randNow (w : Option Nibble) : (s.setWait w).randNow = s.randNow := rfl
@[simp] theorem State.setWait_ticksNow (w : Option Nibble) : (s.setWait w).ticksNow = s.ticksNow := rfl

/-! ### setFb -/

@[simp] theorem State.setFb_v (f : BitVec 2048) : (s.setFb f).v = s.v := rfl
@[simp] theorem State.setFb_i (f : BitVec 2048) : (s.setFb f).i = s.i := rfl
@[simp] theorem State.setFb_pc (f : BitVec 2048) : (s.setFb f).pc = s.pc := rfl
@[simp] theorem State.setFb_stack (f : BitVec 2048) : (s.setFb f).stack = s.stack := rfl
@[simp] theorem State.setFb_depth (f : BitVec 2048) : (s.setFb f).depth = s.depth := rfl
@[simp] theorem State.setFb_dt (f : BitVec 2048) : (s.setFb f).dt = s.dt := rfl
@[simp] theorem State.setFb_st (f : BitVec 2048) : (s.setFb f).st = s.st := rfl
@[simp] theorem State.setFb_mem (f : BitVec 2048) : (s.setFb f).mem = s.mem := rfl
@[simp] theorem State.setFb_fb (f : BitVec 2048) : (s.setFb f).fb = f := rfl
@[simp] theorem State.setFb_wait (f : BitVec 2048) : (s.setFb f).wait = s.wait := rfl
@[simp] theorem State.setFb_err (f : BitVec 2048) : (s.setFb f).err = s.err := rfl
@[simp] theorem State.setFb_env (f : BitVec 2048) : (s.setFb f).env = s.env := rfl
@[simp] theorem State.setFb_getV (f : BitVec 2048) (q : Nibble) : (s.setFb f).getV q = s.getV q := rfl
@[simp] theorem State.setFb_byteAt (f : BitVec 2048) (c : Nat) : (s.setFb f).byteAt c = s.byteAt c := rfl
@[simp] theorem State.setFb_keyNow (f : BitVec 2048) : (s.setFb f).keyNow = s.keyNow := rfl
@[simp] theorem State.setFb_randNow (f : BitVec 2048) : (s.setFb f).randNow = s.randNow := rfl
@[simp] theorem State.setFb_ticksNow (f : BitVec 2048) : (s.setFb f).ticksNow = s.ticksNow := rfl

/-! ### raise -/

@[simp] theorem State.raise_v (k : Fault) : (s.raise k).v = s.v := rfl
@[simp] theorem State.raise_i (k : Fault) : (s.raise k).i = s.i := rfl
@[simp] theorem State.raise_pc (k : Fault) : (s.raise k).pc = s.pc := rfl
@[simp] theorem State.raise_stack (k : Fault) : (s.raise k).stack = s.stack := rfl
@[simp] theorem State.raise_depth (k : Fault) : (s.raise k).depth = s.depth := rfl
@[simp] theorem State.raise_dt (k : Fault) : (s.raise k).dt = s.dt := rfl
@[simp] theorem State.raise_st (k : Fault) : (s.raise k).st = s.st := rfl
@[simp] theorem State.raise_mem (k : Fault) : (s.raise k).mem = s.mem := rfl
@[simp] theorem State.raise_fb (k : Fault) : (s.raise k).fb = s.fb := rfl
@[simp] theorem State.raise_wait (k : Fault) : (s.raise k).wait = s.wait := rfl
@[simp] theorem State.raise_err (k : Fault) : (s.raise k).err = some k := rfl
@[simp] theorem State.raise_env (k : Fault) : (s.raise k).env = s.env := rfl
@[simp] theorem State.raise_getV (k : Fault) (q : Nibble) : (s.raise k).getV q = s.getV q := rfl
@[simp] theorem State.raise_byteAt (k : Fault) (c : Nat) : (s.raise k).byteAt c = s.byteAt c := rfl
@[simp] theorem State.raise_keyNow (k : Fault) : (s.raise k).keyNow = s.keyNow := rfl
@[simp] theorem State.raise_randNow (k : Fault) : (s.raise k).randNow = s.randNow := rfl
@[simp] theorem State.raise_ticksNow (k : Fault) : (s.raise k).ticksNow = s.ticksNow := rfl

/-! ### advance -/

@[simp] theorem State.advance_v : (s.advance).v = s.v := rfl
@[simp] theorem State.advance_i : (s.advance).i = s.i := rfl
@[simp] theorem State.advance_pc : (s.advance).pc = s.pc + 2 := rfl
@[simp] theorem State.advance_stack : (s.advance).stack = s.stack := rfl
@[simp] theorem State.advance_depth : (s.advance).depth = s.depth := rfl
@[simp] theorem State.advance_dt : (s.advance).dt = s.dt := rfl
@[simp] theorem State.advance_st : (s.advance).st = s.st := rfl
@[simp] theorem State.advance_mem : (s.advance).mem = s.mem := rfl
@[simp] theorem State.advance_fb : (s.advance).fb = s.fb := rfl
@[simp] theorem State.advance_wait : (s.advance).wait = s.wait := rfl
@[simp] theorem State.advance_err : (s.advance).err = s.err := rfl
@[simp] theorem State.advance_env : (s.advance).env = s.env := rfl
@[simp] theorem State.advance_getV (q : Nibble) : (s.advance).getV q = s.getV q := rfl
@[simp] theorem State.advance_byteAt (c : Nat) : (s.advance).byteAt c = s.byteAt c := rfl
@[simp] theorem State.advance_keyNow : (s.advance).keyNow = s.keyNow := rfl
@[simp] theorem State.advance_randNow : (s.advance).randNow = s.randNow := rfl
@[simp] theorem State.advance_ticksNow : (s.advance).ticksNow = s.ticksNow := rfl

/-! ### drawn -/

@[simp] theorem State.drawn_v : (s.drawn).v = s.v := rfl
@[simp] theorem State.drawn_i : (s.drawn).i = s.i := rfl
@[simp] theorem State.drawn_pc : (s.drawn).pc = s.pc := rfl
@[simp] theorem State.drawn_stack : (s.drawn).stack = s.stack := rfl
@[simp] theorem State.drawn_depth : (s.drawn).depth = s.depth := rfl
@[simp] theorem State.drawn_dt : (s.drawn).dt = s.dt := rfl
@[simp] theorem State.drawn_st : (s.drawn).st = s.st := rfl
@[simp] theorem State.drawn_mem : (s.drawn).mem = s.mem := rfl
@[simp] theorem State.drawn_fb : (s.drawn).fb = s.fb := rfl
@[simp] theorem State.drawn_wait : (s.drawn).wait = s.wait := rfl
@[simp] theorem State.drawn_err : (s.drawn).err = s.err := rfl
@[simp] theorem State.drawn_env : (s.drawn).env = { s.env with draws := s.env.draws + 1 } := rfl
@[simp] theorem State.drawn_getV (q : Nibble) : (s.drawn).getV q = s.getV q := rfl
@[simp] theorem State.drawn_byteAt (c : Nat) : (s.drawn).byteAt c = s.byteAt c := rfl

/-! ### repaint -/

@[simp] theorem State.repaint_v : (s.repaint).v = s.v := rfl
@[simp] theorem State.repaint_i : (s.repaint).i = s.i := rfl
@[simp] theorem State.repaint_pc : (s.repaint).pc = s.pc := rfl
@[simp] theorem State.repaint_stack : (s.repaint).stack = s.stack := rfl
@[simp] theorem State.repaint_depth : (s.repaint).depth = s.depth := rfl
@[simp] theorem State.repaint_dt : (s.repaint).dt = s.dt := rfl
@[simp] theorem State.repaint_st : (s.repaint).st = s.st := rfl
@[simp] theorem State.repaint_mem : (s.repaint).mem = s.mem := rfl
@[simp] theorem State.repaint_fb : (s.repaint).fb = s.fb := rfl
@[simp] theorem State.repaint_wait : (s.repaint).wait = s.wait := rfl
@[simp] theorem State.repaint_err : (s.repaint).err = s.err := rfl
@[simp] theorem State.repaint_env : (s.repaint).env = { s.env with repaints := s.env.repaints + 1 } := rfl
@[simp] theorem State.repaint_getV (q : Nibble) : (s.repaint).getV q = s.getV q := rfl
@[simp] theorem State.repaint_byteAt (c : Nat) : (s.repaint).byteAt c = s.byteAt c := rfl
@[simp] theorem State.repaint_keyNow : (s.repaint).keyNow = s.keyNow := rfl
@[simp] theorem State.repaint_randNow : (s.repaint).randNow = s.randNow := rfl
@[simp] theorem State.repaint_ticksNow : (s.repaint).ticksNow = s.ticksNow := rfl

/-! ### closeLoad -/

@[simp] theorem State.closeLoad_v : (s.closeLoad).v = s.v := rfl
@[simp] theorem State.closeLoad_i : (s.closeLoad).i = s.i := rfl
@[simp] theorem State.closeLoad_pc : (s.closeLoad).pc = s.pc := rfl
@[simp] theorem State.closeLoad_stack : (s.closeLoad).stack = s.stack := rfl
@[simp] theorem State.closeLoad_depth : (s.closeLoad).depth = s.depth := rfl
@[simp] theorem State.closeLoad_dt : (s.closeLoad).dt = s.dt := rfl
@[simp] theorem State.closeLoad_st : (s.closeLoad).st = s.st := rfl
@[simp] theorem State.closeLoad_mem : (s.closeLoad).mem = s.mem := rfl
@[simp] theorem State.closeLoad_fb : (s.closeLoad).fb = s.fb := rfl
@[simp] theorem State.closeLoad_wait : (s.closeLoad).wait = s.wait := rfl
@[simp] theorem State.closeLoad_err : (s.closeLoad).err = s.err := rfl
@[simp] theorem State.closeLoad_env : (s.closeLoad).env = { s.env with loadOpen := false } := rfl
@[simp] theorem State.closeLoad_getV (q : Nibble) : (s.closeLoad).getV q = s.getV q := rfl
@[simp] theorem State.closeLoad_byteAt (c : Nat) : (s.closeLoad).byteAt c = s.byteAt c := rfl
@[simp] theorem State.closeLoad_keyNow : (s.closeLoad).keyNow = s.keyNow := rfl
@[simp] theorem State.closeLoad_randNow : (s.closeLoad).randNow = s.randNow := rfl
@[simp] theorem State.closeLoad_ticksNow : (s.closeLoad).ticksNow = s.ticksNow := rfl

/-! ### popEvent -/

@[simp] theorem State.popEvent_v : (s.popEvent).v = s.v := rfl
@[simp] theorem State.popEvent_i : (s.popEvent).i = s.i := rfl
@[simp] theorem State.popEvent_pc : (s.popEvent).pc = s.pc := rfl
@[simp] theorem State.popEvent_stack : (s.popEvent).stack = s.stack := rfl
@[simp] theorem State.popEvent_depth : (s.popEvent).depth = s.depth := rfl
@[simp] theorem State.popEvent_dt : (s.popEvent).dt = s.dt := rfl
@[simp] theorem State.popEvent_st : (s.popEvent).st = s.st := rfl
@[simp] theorem State.popEvent_mem : (s.popEvent).mem = s.mem := rfl
@[simp] theorem State.popEvent_fb : (s.popEvent).fb = s.fb := rfl
@[simp] theorem State.popEvent_wait : (s.popEvent).wait = s.wait := rfl
@[simp] theorem State.popEvent_err : (s.popEvent).err = s.err := rfl
@[simp] theorem State.popEvent_env : (s.popEvent).env = { s.env with sched := s.env.sched.tail } := rfl
@[simp] theorem State.popEvent_getV (q : Nibble) : (s.popEvent).getV q = s.getV q := rfl
@[simp] theorem State.popEvent_byteAt (c : Nat) : (s.popEvent).byteAt c = s.byteAt c := rfl
@[simp] theorem State.popEvent_keyNow : (s.popEvent).keyNow = s.keyNow := rfl
@[simp] theorem State.popEvent_randNow : (s.popEvent).randNow = s.randNow := rfl
@[simp] theorem State.popEvent_ticksNow : (s.popEvent).ticksNow = s.ticksNow := rfl

/-! ### timerTick -/

@[simp] theorem State.timerTick_v : (s.timerTick).v = s.v := rfl
@[simp] theorem State.timerTick_i : (s.timerTick).i = s.i := rfl
@[simp] theorem State.timerTick_pc : (s.timerTick).pc = s.pc := rfl
@[simp] theorem State.timerTick_stack : (s.timerTick).stack = s.stack := rfl
@[simp] theorem State.timerTick_depth : (s.timerTick).depth = s.depth := rfl
@[simp] theorem State.timerTick_dt : (s.timerTick).dt = tickByte s.dt := rfl
@[simp] theorem State.timerTick_st : (s.timerTick).st = tickByte s.st := rfl
@[simp] theorem State.timerTick_mem : (s.timerTick).mem = s.mem := rfl
@[simp] theorem State.timerTick_fb : (s.timerTick).fb = s.fb := rfl
@[simp] theorem State.timerTick_wait : (s.timerTick).wait = s.wait := rfl
@[simp] theorem State.timerTick_err : (s.timerTick).err = s.err := rfl
@[simp] theorem State.timerTick_env : (s.timerTick).env = s.env := rfl
@[simp] theorem State.timerTick_getV (q : Nibble) : (s.timerTick).getV q = s.getV q := rfl
@[simp] theorem State.timerTick_byteAt (c : Nat) : (s.timerTick).byteAt c = s.byteAt c := rfl
@[simp] theorem State.timerTick_keyNow : (s.timerTick).keyNow = s.keyNow := rfl
@[simp] theorem State.timerTick_randNow : (s.timerTick).randNow = s.randNow := rfl
@[simp] theorem State.timerTick_ticksNow : (s.timerTick).ticksNow = s.ticksNow := rfl

/-! ### timerTicks -/

@[simp] theorem State.timerTicks_v (n : Nat) : (s.timerTicks n).v = s.v := rfl
@[simp] theorem State.timerTicks_i (n : Nat) : (s.timerTicks n).i = s.i := rfl
@[simp] theorem State.timerTicks_pc (n : Nat) : (s.timerTicks n).pc = s.pc := rfl
@[simp] theorem State.timerTicks_stack (n : Nat) : (s.timerTicks n).stack = s.stack := rfl
@[simp] theorem State.timerTicks_depth (n : Nat) : (s.timerTicks n).depth = s.depth := rfl
@[simp] theorem State.timerTicks_dt (n : Nat) : (s.timerTicks n).dt = ticksByte n s.dt := rfl
@[simp] theorem State.timerTicks_st (n : Nat) : (s.timerTicks n).st = ticksByte n s.st := rfl
@[simp] theorem State.timerTicks_mem (n : Nat) : (s.timerTicks n).mem = s.mem := rfl
@[simp] theorem State.timerTicks_fb (n : Nat) : (s.timerTicks n).fb = s.fb := rfl
@[simp] theorem State.timerTicks_wait (n : Nat) : (s.timerTicks n).wait = s.wait := rfl
@[simp] theorem State.timerTicks_err (n : Nat) : (s.timerTicks n).err = s.err := rfl
@[simp] theorem State.timerTicks_env (n : Nat) : (s.timerTicks n).env = s.env := rfl
@[simp] theorem State.timerTicks_getV (n : Nat) (q : Nibble) : (s.timerTicks n).getV q = s.getV q := rfl
@[simp] theorem State.timerTicks_byteAt (n : Nat) (c : Nat) : (s.timerTicks n).byteAt c = s.byteAt c := rfl
@[simp] theorem State.timerTicks_keyNow (n : Nat) : (s.timerTicks n).keyNow = s.keyNow := rfl
@[simp] theorem State.timerTicks_randNow (n : Nat) : (s.timerTicks n).randNow = s.randNow := rfl
@[simp] theorem State.timerTicks_ticksNow (n : Nat) : (s.timerTicks n).ticksNow = s.ticksNow := rfl

/-! ### elapse -/

@[simp] theorem State.elapse_v : (s.elapse).v = s.v := rfl
@[simp] theorem State.elapse_i : (s.elapse).i = s.i := rfl
@[simp] theorem State.elapse_pc : (s.elapse).pc = s.pc := rfl
@[simp] theorem State.elapse_stack : (s.elapse).stack = s.stack := rfl
@[simp] theorem State.elapse_depth : (s.elapse).depth = s.depth := rfl
@[simp] theorem State.elapse_dt : (s.elapse).dt = ticksByte s.ticksNow s.dt := rfl
@[simp] theorem State.elapse_st : (s.elapse).st = ticksByte s.ticksNow s.st := rfl
@[simp] theorem State.elapse_mem : (s.elapse).mem = s.mem := rfl
@[simp] theorem State.elapse_fb : (s.elapse).fb = s.fb := rfl
@[simp] theorem State.elapse_wait : (s.elapse).wait = s.wait := rfl
@[simp] theorem State.elapse_err : (s.elapse).err = s.err := rfl
@[simp] theorem State.elapse_env : (s.elapse).env = { s.env with draws := s.env.draws + 1 } := rfl
@[simp] theorem State.elapse_getV (q : Nibble) : (s.elapse).getV q = s.getV q := rfl
@[simp] theorem State.elapse_byteAt (c : Nat) : (s.elapse).byteAt c = s.byteAt c := rfl

/-! ### The register file -/

/-- A register read after a register write: the value written to it, or what it held. -/
theorem State.getV_setV (r : Nibble) (b : Byte) (q : Nibble) :
    (s.setV r b).getV q = if q = r then b else s.getV q := by
  unfold State.getV State.setV
  by_cases h : q = r
  · subst h; simp
  · have hne : r.toNat ≠ q.toNat := fun e => h (BitVec.eq_of_toNat_eq e.symm)
    simp [h, hne]

@[simp] theorem State.getV_setV_same (r : Nibble) (b : Byte) : (s.setV r b).getV r = b := by
  simp [State.getV_setV]

@[simp] theorem State.getV_setV_of_ne {q r : Nibble} (h : q ≠ r) (b : Byte) : (s.setV r b).getV q = s.getV q := by
  simp [State.getV_setV, h]

/-- A flagged write: the result in its destination, else the flag in VF (42_load_alu.md R100). -/
theorem State.getV_writeFlagged (x : Nibble) (f b : Byte) (q : Nibble) :
    (s.writeFlagged x f b).getV q = if q = x then b else if q = vf then f else s.getV q := by
  simp [State.writeFlagged, State.getV_setV]

@[simp] theorem State.writeFlagged_i (x : Nibble) (f b : Byte) : (s.writeFlagged x f b).i = s.i := rfl
@[simp] theorem State.writeFlagged_pc (x : Nibble) (f b : Byte) : (s.writeFlagged x f b).pc = s.pc := rfl
@[simp] theorem State.writeFlagged_stack (x : Nibble) (f b : Byte) : (s.writeFlagged x f b).stack = s.stack := rfl
@[simp] theorem State.writeFlagged_depth (x : Nibble) (f b : Byte) : (s.writeFlagged x f b).depth = s.depth := rfl
@[simp] theorem State.writeFlagged_dt (x : Nibble) (f b : Byte) : (s.writeFlagged x f b).dt = s.dt := rfl
@[simp] theorem State.writeFlagged_st (x : Nibble) (f b : Byte) : (s.writeFlagged x f b).st = s.st := rfl
@[simp] theorem State.writeFlagged_mem (x : Nibble) (f b : Byte) : (s.writeFlagged x f b).mem = s.mem := rfl
@[simp] theorem State.writeFlagged_fb (x : Nibble) (f b : Byte) : (s.writeFlagged x f b).fb = s.fb := rfl
@[simp] theorem State.writeFlagged_wait (x : Nibble) (f b : Byte) : (s.writeFlagged x f b).wait = s.wait := rfl
@[simp] theorem State.writeFlagged_err (x : Nibble) (f b : Byte) : (s.writeFlagged x f b).err = s.err := rfl
@[simp] theorem State.writeFlagged_env (x : Nibble) (f b : Byte) : (s.writeFlagged x f b).env = s.env := rfl
@[simp] theorem State.writeFlagged_byteAt (x : Nibble) (f b : Byte) (c : Nat) :
    (s.writeFlagged x f b).byteAt c = s.byteAt c := rfl

/-! ### Skips -/

/-- A skip changes PC alone, by 2 when its condition holds (41_control_flow.md R98). -/
theorem State.skipIf_eq (c : Bool) : s.skipIf c = s.setPc (if c then s.pc + 2 else s.pc) := by
  cases c <;> rfl

@[simp] theorem State.skipIf_v (c : Bool) : (s.skipIf c).v = s.v := by cases c <;> rfl
@[simp] theorem State.skipIf_i (c : Bool) : (s.skipIf c).i = s.i := by cases c <;> rfl
@[simp] theorem State.skipIf_pc (c : Bool) : (s.skipIf c).pc = if c then s.pc + 2 else s.pc := by cases c <;> rfl
@[simp] theorem State.skipIf_stack (c : Bool) : (s.skipIf c).stack = s.stack := by cases c <;> rfl
@[simp] theorem State.skipIf_depth (c : Bool) : (s.skipIf c).depth = s.depth := by cases c <;> rfl
@[simp] theorem State.skipIf_dt (c : Bool) : (s.skipIf c).dt = s.dt := by cases c <;> rfl
@[simp] theorem State.skipIf_st (c : Bool) : (s.skipIf c).st = s.st := by cases c <;> rfl
@[simp] theorem State.skipIf_mem (c : Bool) : (s.skipIf c).mem = s.mem := by cases c <;> rfl
@[simp] theorem State.skipIf_fb (c : Bool) : (s.skipIf c).fb = s.fb := by cases c <;> rfl
@[simp] theorem State.skipIf_wait (c : Bool) : (s.skipIf c).wait = s.wait := by cases c <;> rfl
@[simp] theorem State.skipIf_err (c : Bool) : (s.skipIf c).err = s.err := by cases c <;> rfl
@[simp] theorem State.skipIf_env (c : Bool) : (s.skipIf c).env = s.env := by cases c <;> rfl
@[simp] theorem State.skipIf_getV (c : Bool) (q : Nibble) : (s.skipIf c).getV q = s.getV q := by cases c <;> rfl
@[simp] theorem State.skipIf_byteAt (c : Bool) (a : Nat) : (s.skipIf c).byteAt a = s.byteAt a := by cases c <;> rfl

/-! ### resetWith and resetEvent -/

@[simp] theorem State.resetWith_v (f : FontTable) : (State.resetWith f).v = Vector.replicate 16 0 := rfl
@[simp] theorem State.resetWith_i (f : FontTable) : (State.resetWith f).i = 0 := rfl
@[simp] theorem State.resetWith_pc (f : FontTable) : (State.resetWith f).pc = BitVec.ofNat 16 Config.progBase := rfl
@[simp] theorem State.resetWith_stack (f : FontTable) : (State.resetWith f).stack = Vector.replicate 16 0 := rfl
@[simp] theorem State.resetWith_depth (f : FontTable) : (State.resetWith f).depth = 0 := rfl
@[simp] theorem State.resetWith_dt (f : FontTable) : (State.resetWith f).dt = 0 := rfl
@[simp] theorem State.resetWith_st (f : FontTable) : (State.resetWith f).st = 0 := rfl
@[simp] theorem State.resetWith_mem (f : FontTable) : (State.resetWith f).mem = Memory.seeded f := rfl
@[simp] theorem State.resetWith_fb (f : FontTable) : (State.resetWith f).fb = 0 := rfl
@[simp] theorem State.resetWith_wait (f : FontTable) : (State.resetWith f).wait = none := rfl
@[simp] theorem State.resetWith_err (f : FontTable) : (State.resetWith f).err = none := rfl
@[simp] theorem State.resetWith_env (f : FontTable) : (State.resetWith f).env = { Env.reset with font := f } := rfl

@[simp] theorem State.resetEvent_v : s.resetEvent.v = Vector.replicate 16 0 := rfl
@[simp] theorem State.resetEvent_i : s.resetEvent.i = 0 := rfl
@[simp] theorem State.resetEvent_pc : s.resetEvent.pc = BitVec.ofNat 16 Config.progBase := rfl
@[simp] theorem State.resetEvent_stack : s.resetEvent.stack = Vector.replicate 16 0 := rfl
@[simp] theorem State.resetEvent_depth : s.resetEvent.depth = 0 := rfl
@[simp] theorem State.resetEvent_dt : s.resetEvent.dt = 0 := rfl
@[simp] theorem State.resetEvent_st : s.resetEvent.st = 0 := rfl
@[simp] theorem State.resetEvent_mem : s.resetEvent.mem = Memory.seeded s.env.font := rfl
@[simp] theorem State.resetEvent_fb : s.resetEvent.fb = 0 := rfl
@[simp] theorem State.resetEvent_wait : s.resetEvent.wait = none := rfl
@[simp] theorem State.resetEvent_err : s.resetEvent.err = none := rfl
@[simp] theorem State.resetEvent_env : s.resetEvent.env = { s.env with loadOpen := true, loadStatus := none } := rfl

/-- The reset state is the one with FONT at its default. -/
theorem State.resetWith_default : State.resetWith defaultFont = State.reset := by decide +kernel

end Sys2Proof.Machine
end

