-- ==== Sys2Proof/Laws/Frame.lean ====
section
/-! SUPPORT. Frames of the named operations: each agrees with the state it starts from on every part but those listed. -/

namespace Sys2Proof.Machine

/-- A frame from its twelve parts and the host's side. -/
theorem Unchanged.refl (but : List Part) (s : State) : Unchanged but s s :=
  ⟨fun p _ => by cases p <;> simp [Part.same], rfl, rfl, rfl, rfl, rfl, rfl, rfl⟩

/-- Two frames one after the other. -/
theorem Unchanged.trans {but : List Part} {s t u : State} (h : Unchanged but s t) (k : Unchanged but t u) :
    Unchanged but s u := by
  obtain ⟨hp, h1, h2, h3, h4, h5, h6, h7⟩ := h
  obtain ⟨kp, k1, k2, k3, k4, k5, k6, k7⟩ := k
  refine ⟨fun p hn => ?_, k1.trans h1, k2.trans h2, k3.trans h3, k4.trans h4, k5.trans h5, k6.trans h6,
    k7.trans h7⟩
  have a := hp p hn
  have b := kp p hn
  cases p <;> simp_all [Part.same]

/-- A frame with more parts listed says less. -/
theorem Unchanged.weaken {small big : List Part} {s t : State} (hs : ∀ p ∈ small, p ∈ big) (h : Unchanged small s t) :
    Unchanged big s t :=
  ⟨fun p hn => h.1 p fun hp => hn (hs p hp), h.2⟩

variable (s : State)

theorem State.setV_frame (r : Nibble) (b : Byte) : Unchanged [.v r] s (s.setV r b) := by
  refine ⟨fun p hp => ?_, rfl, rfl, rfl, rfl, rfl, rfl, rfl⟩
  cases p <;> simp_all [Part.same, State.byteAt]

theorem State.setPc_frame (a : Word) : Unchanged [.pc] s (s.setPc a) := by
  refine ⟨fun p hp => ?_, rfl, rfl, rfl, rfl, rfl, rfl, rfl⟩
  cases p <;> simp_all [Part.same]

theorem State.setI_frame (a : Word) : Unchanged [.i] s (s.setI a) := by
  refine ⟨fun p hp => ?_, rfl, rfl, rfl, rfl, rfl, rfl, rfl⟩
  cases p <;> simp_all [Part.same]

theorem State.setDt_frame (b : Byte) : Unchanged [.dt] s (s.setDt b) := by
  refine ⟨fun p hp => ?_, rfl, rfl, rfl, rfl, rfl, rfl, rfl⟩
  cases p <;> simp_all [Part.same]

theorem State.setSt_frame (b : Byte) : Unchanged [.st] s (s.setSt b) := by
  refine ⟨fun p hp => ?_, rfl, rfl, rfl, rfl, rfl, rfl, rfl⟩
  cases p <;> simp_all [Part.same]

theorem State.setWait_frame (w : Option Nibble) : Unchanged [.wait] s (s.setWait w) := by
  refine ⟨fun p hp => ?_, rfl, rfl, rfl, rfl, rfl, rfl, rfl⟩
  cases p <;> simp_all [Part.same]

theorem State.setFb_frame (f : BitVec 2048) : Unchanged [.fb] s (s.setFb f) := by
  refine ⟨fun p hp => ?_, rfl, rfl, rfl, rfl, rfl, rfl, rfl⟩
  cases p <;> simp_all [Part.same]

theorem State.raise_frame (k : Fault) : Unchanged [.err] s (s.raise k) := by
  refine ⟨fun p hp => ?_, rfl, rfl, rfl, rfl, rfl, rfl, rfl⟩
  cases p <;> simp_all [Part.same]

theorem State.drawn_frame : Unchanged [.draws] s s.drawn := by
  refine ⟨fun p hp => ?_, rfl, rfl, rfl, rfl, rfl, rfl, rfl⟩
  cases p <;> simp_all [Part.same]

theorem State.repaint_frame : Unchanged [.repaints] s s.repaint := by
  refine ⟨fun p hp => ?_, rfl, rfl, rfl, rfl, rfl, rfl, rfl⟩
  cases p <;> simp_all [Part.same]

theorem State.advance_frame : Unchanged [.pc] s s.advance := s.setPc_frame _

theorem State.skipIf_frame (c : Bool) : Unchanged [.pc] s (s.skipIf c) := by
  rw [State.skipIf_eq]; exact s.setPc_frame _

theorem State.writeFlagged_frame (x : Nibble) (f b : Byte) : Unchanged [.v x, .v vf] s (s.writeFlagged x f b) :=
  (Unchanged.weaken (by simp) (s.setV_frame vf f)).trans (Unchanged.weaken (by simp) ((s.setV vf f).setV_frame x b))

end Sys2Proof.Machine
end

