-- ==== Sys2Proof/Laws/Memory.lean ====
section
/-! SUPPORT. Laws of memory: a read after a write, and that every operation keeps the canonical form. -/

namespace Sys2Proof.Machine

/-- Every address of a canonical list is at least its lower bound. -/
theorem Memory.wfFrom_mono {lo lo' : Nat} (h : lo' ≤ lo) : ∀ {m : Memory}, m.wfFrom lo = true → m.wfFrom lo' = true
  | [], _ => rfl
  | (c, b) :: m, hm => by
    simp only [Memory.wfFrom, Bool.and_eq_true, decide_eq_true_eq] at hm ⊢
    exact ⟨⟨⟨by omega, hm.1.1.2⟩, hm.1.2⟩, hm.2⟩

/-- Below the bound of a canonical list, memory reads as at reset. -/
theorem Memory.read_of_lt {lo a : Nat} (h : a < lo) : ∀ {m : Memory}, m.wfFrom lo = true → m.read a = Memory.resetByte a
  | [], _ => rfl
  | (c, b) :: m, hm => by
    simp only [Memory.wfFrom, Bool.and_eq_true, decide_eq_true_eq] at hm
    have hc : a ≠ c := by omega
    simp only [Memory.read, hc, if_false]
    exact Memory.read_of_lt (by omega) hm.2

/-- Outside memory nothing is listed, so a read there is the reset byte of no cell. -/
theorem Memory.read_of_ge {a : Nat} (h : Config.memSize ≤ a) :
    ∀ {lo : Nat} {m : Memory}, m.wfFrom lo = true → m.read a = Memory.resetByte a
  | _, [], _ => rfl
  | _, (c, b) :: m, hm => by
    simp only [Memory.wfFrom, Bool.and_eq_true, decide_eq_true_eq] at hm
    have hc : a ≠ c := by omega
    simp only [Memory.read, hc, if_false]
    exact Memory.read_of_ge h hm.2

/-- A write at an address that exists keeps the canonical form. -/
theorem Memory.insert_wfFrom {a : Nat} {b : Byte} (ha : a < Config.memSize) :
    ∀ {lo : Nat} {m : Memory}, lo ≤ a → m.wfFrom lo = true → (m.insert a b).wfFrom lo = true
  | lo, [], hlo, _ => by
    unfold Memory.insert
    split <;> simp_all [Memory.wfFrom]
  | lo, (c, d) :: m, hlo, hm => by
    have hm' := hm
    simp only [Memory.wfFrom, Bool.and_eq_true, decide_eq_true_eq] at hm'
    unfold Memory.insert
    split
    · split
      · exact hm
      · rename_i hac hb
        simp only [Memory.wfFrom, Bool.and_eq_true, decide_eq_true_eq]
        exact ⟨⟨⟨hlo, ha⟩, hb⟩, ⟨⟨⟨by omega, hm'.1.1.2⟩, hm'.1.2⟩, hm'.2⟩⟩
    · split
      · split
        · exact Memory.wfFrom_mono (by omega) hm'.2
        · rename_i hac hb
          simp only [Memory.wfFrom, Bool.and_eq_true, decide_eq_true_eq]
          exact ⟨⟨⟨hlo, ha⟩, hb⟩, Memory.wfFrom_mono (by omega) hm'.2⟩
      · simp only [Memory.wfFrom, Bool.and_eq_true, decide_eq_true_eq]
        exact ⟨⟨⟨hm'.1.1.1, hm'.1.1.2⟩, hm'.1.2⟩, Memory.insert_wfFrom ha (by omega) hm'.2⟩

/-- A read after a write in a list with rising addresses: the byte written, or what was there. -/
theorem Memory.read_insert {a : Nat} {b : Byte} (c : Nat) :
    ∀ {lo : Nat} {m : Memory}, m.wfFrom lo = true → (m.insert a b).read c = if c = a then b else m.read c
  | _, [], _ => by
    unfold Memory.insert
    split <;> by_cases h : c = a <;> simp_all [Memory.read]
  | lo, (d, e) :: m, hm => by
    have hm' := hm
    simp only [Memory.wfFrom, Bool.and_eq_true, decide_eq_true_eq] at hm'
    unfold Memory.insert
    split
    · rename_i had
      have hread : ∀ {q}, q < d → Memory.read ((d, e) :: m) q = Memory.resetByte q := fun {q} hq => by
        simp only [Memory.read, Nat.ne_of_lt hq, if_false]
        exact Memory.read_of_lt (by omega) hm'.2
      split
      · rename_i hb
        by_cases h : c = a
        · subst h; rw [hread had, hb]; simp
        · simp [h]
      · by_cases h : c = a <;> simp [Memory.read, h]
    · split
      · rename_i had heq
        subst heq
        split
        · rename_i hb
          by_cases h : c = a
          · subst h
            rw [Memory.read_of_lt (Nat.lt_succ_self _) hm'.2, hb]; simp
          · simp [Memory.read, h]
        · by_cases h : c = a <;> simp [Memory.read, h]
      · rename_i had hne
        simp only [Memory.read]
        rw [Memory.read_insert c hm'.2]
        by_cases h : c = d
        · subst h
          simp [show c ≠ a from fun e => hne e.symm]
        · simp [h]

/-- A read after a write (20_memory.md R46). -/
theorem Memory.read_write {m : Memory} (hm : m.wf = true) (a : Nat) (b : Byte) (c : Nat) :
    (m.write a b).read c = if c = a then b else m.read c :=
  Memory.read_insert c hm

/-- A write in range keeps the canonical form. -/
theorem Memory.write_wf {m : Memory} (hm : m.wf = true) {a : Nat} (ha : a < Config.memSize) (b : Byte) :
    (m.write a b).wf = true :=
  Memory.insert_wfFrom ha (Nat.zero_le _) hm

/-- Writing a list of bytes in range keeps the canonical form. -/
theorem Memory.writeAll_wf : ∀ {bs : List Byte} {m : Memory} {a : Nat}, m.wf = true → a + bs.length ≤ Config.memSize →
    (m.writeAll a bs).wf = true
  | [], _, _, hm, _ => hm
  | b :: bs, m, a, hm, ha => by
    simp only [List.length_cons] at ha
    have hw : (Memory.write m a b).wf = true := Memory.write_wf hm (by omega) b
    rw [Memory.writeAll]
    exact Memory.writeAll_wf hw (by omega)

/-- A read after a list of bytes is written: the byte that fell there, or what was there. -/
theorem Memory.read_writeAll : ∀ {bs : List Byte} {m : Memory} {a : Nat}, m.wf = true → a + bs.length ≤ Config.memSize →
    ∀ c, (m.writeAll a bs).read c = if h : a ≤ c ∧ c - a < bs.length then bs[c - a]'h.2 else m.read c
  | [], _, _, _, _, c => by simp [Memory.writeAll]
  | b :: bs, m, a, hm, ha, c => by
    simp only [List.length_cons] at ha
    rw [Memory.writeAll, Memory.read_writeAll (Memory.write_wf hm (by omega) b) (by omega) c, Memory.read_write hm]
    by_cases h1 : a + 1 ≤ c ∧ c - (a + 1) < bs.length
    · have h2 : a ≤ c ∧ c - a < (b :: bs).length := by simp only [List.length_cons]; omega
      obtain ⟨k, hk⟩ : ∃ k, c - a = k + 1 := ⟨c - a - 1, by omega⟩
      have hk' : c - (a + 1) = k := by omega
      rw [dif_pos h1, dif_pos h2]
      simp only [hk, hk', List.getElem_cons_succ]
    · rw [dif_neg h1]
      by_cases h2 : c = a
      · subst h2
        simp
      · have h3 : ¬(a ≤ c ∧ c - a < (b :: bs).length) := by simp only [List.length_cons]; omega
        rw [dif_neg h3, if_neg h2]

/-- Two canonical lists that read the same everywhere are the same list: equal memories are equal data. -/
theorem Memory.ext_wfFrom : ∀ {m n : Memory} {lo lo' : Nat}, m.wfFrom lo = true → n.wfFrom lo' = true →
    (∀ a, m.read a = n.read a) → m = n
  | [], [], _, _, _, _, _ => rfl
  | [], (c, b) :: n, _, _, _, hn, h => by
    simp only [Memory.wfFrom, Bool.and_eq_true, decide_eq_true_eq] at hn
    have := h c
    simp only [Memory.read, if_true] at this
    exact absurd this.symm hn.1.2
  | (c, b) :: m, [], _, _, hm, _, h => by
    simp only [Memory.wfFrom, Bool.and_eq_true, decide_eq_true_eq] at hm
    have := h c
    simp only [Memory.read, if_true] at this
    exact absurd this hm.1.2
  | (c, b) :: m, (d, e) :: n, _, _, hm, hn, h => by
    simp only [Memory.wfFrom, Bool.and_eq_true, decide_eq_true_eq] at hm hn
    have key : c = d := by
      rcases Nat.lt_trichotomy c d with hlt | heq | hgt
      · have := h c
        simp only [Memory.read, if_true, Nat.ne_of_lt hlt, if_false] at this
        rw [Memory.read_of_lt (by omega) hn.2] at this
        exact absurd this hm.1.2
      · exact heq
      · have := h d
        simp only [Memory.read, if_true, Nat.ne_of_lt hgt, if_false] at this
        rw [Memory.read_of_lt (by omega) hm.2] at this
        exact absurd this.symm hn.1.2
    subst key
    have hb := h c
    simp only [Memory.read, if_true] at hb
    subst hb
    have hrest : ∀ a, Memory.read m a = Memory.read n a := fun a => by
      by_cases ha : a = c
      · subst ha
        rw [Memory.read_of_lt (Nat.lt_succ_self _) hm.2, Memory.read_of_lt (Nat.lt_succ_self _) hn.2]
      · simpa [Memory.read, ha] using h a
    rw [Memory.ext_wfFrom hm.2 hn.2 hrest]

/-! ### The reset contents for a FONT (10_state.md R20) -/

/-- The empty list is canonical. -/
theorem Memory.nil_wf : Memory.wf [] = true := rfl

/-- The bytes of a FONT lie in memory. -/
theorem fontTable_fits (f : FontTable) : Config.fontBase + f.toList.length ≤ Config.memSize := by
  rw [Vector.length_toList]
  decide

/-- Seeding keeps the canonical form. -/
theorem Memory.seeded_wf (f : FontTable) : (Memory.seeded f).wf = true :=
  Memory.writeAll_wf Memory.nil_wf (fontTable_fits f)

/-- What seeded memory reads as: FONT at its place, zero elsewhere. -/
theorem Memory.read_seeded (f : FontTable) (a : Nat) :
    (Memory.seeded f).read a = if h : 0x050 ≤ a ∧ a - 0x050 < 80 then f[a - 0x050]'h.2 else 0 := by
  rw [Memory.seeded, Memory.read_writeAll Memory.nil_wf (fontTable_fits f)]
  have hl : f.toList.length = 80 := Vector.length_toList ..
  by_cases h : 0x050 ≤ a ∧ a - 0x050 < 80
  · rw [dif_pos h, dif_pos (by rw [hl]; exact h)]
    rfl
  · rw [dif_neg h, dif_neg (by rw [hl]; exact h)]
    show Memory.resetByte a = 0
    unfold Memory.resetByte
    split
    · rfl
    · rename_i hlt
      have hf : font.length = 80 := by decide
      have ha : font.length ≤ a - Config.fontBase := by
        unfold Config.fontBase at *
        omega
      rw [List.getD_eq_getElem?_getD, List.getElem?_eq_none ha]
      rfl

/-- With FONT at its default nothing is listed. -/
theorem Memory.seeded_default : Memory.seeded defaultFont = [] := by decide

end Sys2Proof.Machine
end

