-- ==== Sys2Proof/Laws/Ops.lean ====
section
/-! SUPPORT. One lemma per shared operation that says everything it can do. -/

namespace Sys2Proof.Machine

variable {s : State}

/-! ### Stack (10_state.md R17) -/

/-- A push on a stack that is not full. -/
theorem State.push_ok {a : Word} (h : s.depth.val < 16) :
    s.push a = .ok { s with stack := s.stack.set s.depth.val a h, depth := ⟨s.depth.val + 1, by omega⟩ } := by
  simp [State.push, h]

/-- A push on a full stack. -/
theorem State.push_full {a : Word} (h : ¬s.depth.val < 16) : s.push a = .error .stackOverflow := by
  simp [State.push, h]

/-- A pop from a stack that is not empty. -/
theorem State.pop_ok (h : 0 < s.depth.val) :
    s.pop = .ok (s.stack[s.depth.val - 1]'(by have := s.depth.isLt; omega),
      { s with depth := ⟨s.depth.val - 1, by have := s.depth.isLt; omega⟩ }) := by
  simp [State.pop, h]

/-- A pop from an empty stack. -/
theorem State.pop_empty (h : ¬0 < s.depth.val) : s.pop = .error .stackUnderflow := by
  simp [State.pop, h]

/-! ### Memory (20_memory.md R41 to R43) -/

theorem State.memRead_some {a : Nat} (h : a < Config.memSize) : s.memRead a = some (s.byteAt a) := if_pos h

theorem State.memRead_none {a : Nat} (h : ¬a < Config.memSize) : s.memRead a = none := if_neg h

theorem State.memWrite_some {a : Nat} (h : a < Config.memSize) (b : Byte) :
    s.memWrite a b = some { s with mem := s.mem.write a b } := if_pos h

theorem State.memWrite_none {a : Nat} (h : ¬a < Config.memSize) (b : Byte) : s.memWrite a b = none := if_neg h

/-- Stores that all fall in range: memory takes the bytes, and nothing else changes. -/
theorem State.storeBytes_fits : ∀ {bs : List Byte} {s : State} {a : Nat}, a + bs.length ≤ Config.memSize →
    s.storeBytes a bs = { s with mem := s.mem.writeAll a bs }
  | [], _, _, _ => rfl
  | b :: bs, s, a, h => by
    simp only [List.length_cons] at h
    rw [State.storeBytes, State.memWrite_some (by omega)]
    simp only [State.storeBytes_fits (bs := bs) (a := a + 1) (by omega), Memory.writeAll]

/-- Stores of which one falls out of range: the bytes that fit are written, and the fault is raised (60_exceptions.md R154). -/
theorem State.storeBytes_overflows : ∀ {bs : List Byte} {s : State} {a : Nat}, bs ≠ [] → Config.memSize < a + bs.length →
    s.storeBytes a bs =
      ({ s with mem := s.mem.writeAll a (bs.take (Config.memSize - a)) }).raise .addressOutOfRange
  | [], _, _, hb, _ => absurd rfl hb
  | b :: bs, s, a, _, h => by
    simp only [List.length_cons] at h
    by_cases ha : a < Config.memSize
    · obtain ⟨k, hk⟩ : ∃ k, Config.memSize - a = k + 1 := ⟨Config.memSize - a - 1, by omega⟩
      have hk' : Config.memSize - (a + 1) = k := by omega
      rw [State.storeBytes, State.memWrite_some ha]
      have hne : bs ≠ [] := by
        rintro rfl
        simp only [List.length_nil] at h
        omega
      simp only [State.storeBytes_overflows (bs := bs) (a := a + 1) hne (by omega), hk, hk', List.take_succ_cons,
        Memory.writeAll]
    · have hz : Config.memSize - a = 0 := by omega
      rw [State.storeBytes, State.memWrite_none ha]
      simp only [hz, List.take_zero, Memory.writeAll]

/-- Stores change memory and, by a fault, ERR alone. -/
theorem State.storeBytes_other : ∀ (bs : List Byte) (s : State) (a : Nat),
    ∃ m e, s.storeBytes a bs = { s with mem := m, err := e } ∧ (e = s.err ∨ e = some .addressOutOfRange)
  | [], s, _ => ⟨s.mem, s.err, rfl, .inl rfl⟩
  | b :: bs, s, a => by
    by_cases ha : a < Config.memSize
    · obtain ⟨m, e, h, he⟩ := State.storeBytes_other bs { s with mem := s.mem.write a b } (a + 1)
      exact ⟨m, e, by rw [State.storeBytes, State.memWrite_some ha]; exact h, he⟩
    · exact ⟨s.mem, some .addressOutOfRange, by rw [State.storeBytes, State.memWrite_none ha]; rfl, .inr rfl⟩

/-- Stores keep memory canonical. -/
theorem State.storeBytes_wf : ∀ {bs : List Byte} {s : State} {a : Nat}, s.mem.wf = true → (s.storeBytes a bs).mem.wf = true
  | [], _, _, h => h
  | b :: bs, s, a, h => by
    by_cases ha : a < Config.memSize
    · rw [State.storeBytes, State.memWrite_some ha]
      exact State.storeBytes_wf (Memory.write_wf h ha b)
    · rw [State.storeBytes, State.memWrite_none ha]
      exact h

/-- Loads change V and, by a fault, ERR alone. -/
theorem State.loadRegs_other : ∀ (rs : List Nibble) (s : State) (a : Nat),
    ∃ v e, s.loadRegs a rs = { s with v := v, err := e } ∧ (e = s.err ∨ e = some .addressOutOfRange)
  | [], s, _ => ⟨s.v, s.err, rfl, .inl rfl⟩
  | r :: rs, s, a => by
    by_cases ha : a < Config.memSize
    · obtain ⟨v, e, h, he⟩ := State.loadRegs_other rs (s.setV r (s.byteAt a)) (a + 1)
      exact ⟨v, e, by rw [State.loadRegs, State.memRead_some ha]; exact h, he⟩
    · exact ⟨s.v, some .addressOutOfRange, by rw [State.loadRegs, State.memRead_none ha]; rfl, .inr rfl⟩

/-- ERR after loads: the fault iff an address they reach is out of range. -/
theorem State.loadRegs_err : ∀ (rs : List Nibble) (s : State) (a : Nat),
    (s.loadRegs a rs).err = if rs = [] ∨ a + rs.length ≤ Config.memSize then s.err else some .addressOutOfRange
  | [], _, _ => by simp [State.loadRegs]
  | r :: rs, s, a => by
    by_cases ha : a < Config.memSize
    · rw [State.loadRegs, State.memRead_some ha]
      simp only [State.loadRegs_err rs _ (a + 1), State.setV_err, List.length_cons, reduceCtorEq, false_or]
      by_cases hr : rs = []
      · subst hr
        simp [show a + 1 ≤ Config.memSize from ha]
      · simp only [hr, false_or]
        congr 1
        simp only [eq_iff_iff]
        omega
    · rw [State.loadRegs, State.memRead_none ha]
      have : ¬(a + (rs.length + 1) ≤ Config.memSize) := by omega
      simp [this]

/-- A register the loads do not name keeps its value. -/
theorem State.loadRegs_getV_of_not_mem : ∀ {rs : List Nibble} {s : State} {a : Nat} {q : Nibble}, q ∉ rs →
    (s.loadRegs a rs).getV q = s.getV q
  | [], _, _, _, _ => rfl
  | r :: rs, s, a, q, h => by
    simp only [List.mem_cons, not_or] at h
    by_cases ha : a < Config.memSize
    · rw [State.loadRegs, State.memRead_some ha]
      simp only [State.loadRegs_getV_of_not_mem (rs := rs) h.2, State.getV_setV_of_ne s h.1]
    · rw [State.loadRegs, State.memRead_none ha]
      rfl

/-- The k-th register of distinct ones takes the k-th byte, where that is in range. -/
theorem State.loadRegs_getV : ∀ {rs : List Nibble} {s : State} {a k : Nat} (hk : k < rs.length), rs.Nodup →
    a + k < Config.memSize → (s.loadRegs a rs).getV (rs[k]'hk) = s.byteAt (a + k)
  | [], _, _, _, hk, _, _ => absurd hk (Nat.not_lt_zero _)
  | r :: rs, s, a, k, hk, hd, ha => by
    have ha0 : a < Config.memSize := by omega
    rw [State.loadRegs, State.memRead_some ha0]
    simp only [List.nodup_cons] at hd
    cases k with
    | zero =>
      simp only [List.getElem_cons_zero, State.loadRegs_getV_of_not_mem hd.1, State.getV_setV_same, Nat.add_zero]
    | succ k =>
      simp only [List.length_cons] at hk
      have hk' : k < rs.length := by omega
      have ih := State.loadRegs_getV (s := s.setV r (s.byteAt a)) (a := a + 1) hk' hd.2 (by omega)
      simp only [List.getElem_cons_succ]
      rw [ih, State.setV_byteAt, show a + 1 + k = a + (k + 1) by omega]

/-- A register named at a place whose address is out of range keeps its value, the registers being distinct. -/
theorem State.loadRegs_getV_out : ∀ {rs : List Nibble} {s : State} {a k : Nat} (hk : k < rs.length), rs.Nodup →
    Config.memSize ≤ a + k → (s.loadRegs a rs).getV (rs[k]'hk) = s.getV (rs[k]'hk)
  | [], _, _, _, hk, _, _ => absurd hk (Nat.not_lt_zero _)
  | r :: rs, s, a, k, hk, hd, ha => by
    simp only [List.nodup_cons] at hd
    by_cases ha0 : a < Config.memSize
    · rw [State.loadRegs, State.memRead_some ha0]
      cases k with
      | zero => omega
      | succ k =>
        simp only [List.length_cons] at hk
        have hk' : k < rs.length := by omega
        have ih := State.loadRegs_getV_out (s := s.setV r (s.byteAt a)) (a := a + 1) hk' hd.2 (by omega)
        have hne : rs[k] ≠ r := fun e => hd.1 (e ▸ List.getElem_mem hk')
        simp only [List.getElem_cons_succ]
        rw [ih, State.getV_setV_of_ne s hne]
    · rw [State.loadRegs, State.memRead_none ha0]
      rfl

/-- The bytes from `a` on, where they are all in range; n = 0 reaches no address. -/
theorem State.readBytes_eq : ∀ (n : Nat) (s : State) (a : Nat),
    s.readBytes a n =
      if n = 0 ∨ a + n ≤ Config.memSize then some ((List.range n).map fun k => s.byteAt (a + k)) else none
  | 0, _, _ => by simp [State.readBytes]
  | n + 1, s, a => by
    have ih := State.readBytes_eq n s (a + 1)
    by_cases h : a + (n + 1) ≤ Config.memSize
    · have ha : a < Config.memSize := by omega
      have hn : n = 0 ∨ a + 1 + n ≤ Config.memSize := .inr (by omega)
      rw [State.readBytes, State.memRead_some ha, ih, if_pos hn, if_pos (.inr h)]
      simp only [List.range_succ_eq_map, List.map_cons, List.map_map, Nat.add_zero]
      congr 2
      apply List.map_congr_left
      intro k _
      simp only [Function.comp, show a + 1 + k = a + (k + 1) by omega]
    · have hn : ¬(n + 1 = 0 ∨ a + (n + 1) ≤ Config.memSize) := by omega
      rw [if_neg hn, State.readBytes]
      by_cases ha : a < Config.memSize
      · have hn' : ¬(n = 0 ∨ a + 1 + n ≤ Config.memSize) := by omega
        rw [State.memRead_some ha, ih, if_neg hn']
      · rw [State.memRead_none ha]

/-- The registers RegDump and RegLoad move are distinct. -/
theorem firstRegs_nodup (x : Nibble) : (firstRegs x).Nodup := by
  revert x; decide

/-- They are as many as the count. -/
@[simp] theorem firstRegs_length (x : Nibble) : (firstRegs x).length = x.toNat := by
  simp [firstRegs]

/-- The k-th of them is V[k]. -/
@[simp] theorem firstRegs_getElem (x : Nibble) (k : Nat) (h : k < (firstRegs x).length) :
    (firstRegs x)[k] = BitVec.ofNat 4 k := by
  simp [firstRegs]

/-- A register is moved iff its number is below the count. -/
theorem mem_firstRegs {x q : Nibble} : q ∈ firstRegs x ↔ q.toNat < x.toNat := by
  revert x q; decide

@[simp] theorem State.firstValues_length (x : Nibble) : (s.firstValues x).length = x.toNat := by
  simp [State.firstValues]

/-- A waiting or waking register write changes V, WAIT alone. -/
theorem State.awaitKey_none (x : Nibble) : s.awaitKey x none = s.setWait (some x) := rfl

theorem State.awaitKey_some (x k : Nibble) : s.awaitKey x (some k) = (s.setV x (keyByte k)).setWait none := rfl

/-! ### Operand forms (30_encoding.md R63, 45_keypad_timers.md R146) -/

theorem memSize_eq : Config.memSize = 4096 := rfl

/-- The address immediate keeps its value. -/
@[simp] theorem addrOperand_toNat (nnn : Imm12) : (addrOperand nnn).toNat = nnn.toNat := by
  have h : nnn.toNat < 4096 := nnn.isLt
  rw [addrOperand, BitVec.toNat_setWidth]
  exact Nat.mod_eq_of_lt (by omega)

/-- A register value keeps its value in 16 bits. -/
@[simp] theorem wideByte_toNat (b : Byte) : (wideByte b).toNat = b.toNat := by
  have h : b.toNat < 256 := b.isLt
  rw [wideByte, BitVec.toNat_setWidth]
  exact Nat.mod_eq_of_lt (by omega)

/-- A key keeps its value in a register. -/
@[simp] theorem keyByte_toNat (k : Nibble) : (keyByte k).toNat = k.toNat := by
  have h : k.toNat < 16 := k.isLt
  rw [keyByte, BitVec.toNat_setWidth]
  exact Nat.mod_eq_of_lt (by omega)

/-- A sampled KEY matches a register value iff it is a key and that is its value. -/
theorem keyMatches_iff (k : Option Nibble) (b : Byte) : keyMatches k b = true ↔ ∃ d, k = some d ∧ d.toNat = b.toNat := by
  cases k with
  | none => simp [keyMatches]
  | some d =>
    have h : d.toNat < 16 := d.isLt
    have hm : d.toNat % 2 ^ 8 = d.toNat := Nat.mod_eq_of_lt (by omega)
    rw [keyMatches, beq_iff_eq, BitVec.toNat_eq, BitVec.toNat_setWidth, hm]
    exact ⟨fun h => ⟨d, rfl, h⟩, fun ⟨e, he, h⟩ => by cases he; exact h⟩

/-- A flag is 0 or 1 (10_state.md R11). -/
theorem flagByte_cases (c : Bool) : flagByte c = 0 ∨ flagByte c = 1 := by cases c <;> simp [flagByte]

/-! ### Drawing one pixel (44_display.md R132) -/

/-- The pixel is flipped where the bit is 1, and no other is. -/
theorem drawPixel_pixel {k : Nat} (hk : k < 2048) (bit : Bool) (c : Canvas) (idx : Nat) :
    pixel (drawPixel k bit c).1 idx = (pixel c.1 idx ^^ (decide (idx = k) && bit)) := by
  unfold drawPixel pixel
  cases bit
  · simp
  · by_cases h : idx = k
    · subst h; simp [hk]
    · have : k ≠ idx := fun e => h e.symm
      simp [h, this]

/-- The collision is found where the bit is 1 over a set pixel. -/
theorem drawPixel_collision (k : Nat) (bit : Bool) (c : Canvas) :
    (drawPixel k bit c).2 = (c.2 || (pixel c.1 k && bit)) := rfl

/-! ### Timers (60_exceptions.md R164) -/

/-- A timer later: what is left of it, never below zero. -/
theorem ticksByte_toNat (n : Nat) (b : Byte) : (ticksByte n b).toNat = b.toNat - n := by
  unfold ticksByte
  have := b.isLt
  split
  · rename_i h; subst h; simp
  · rw [BitVec.toNat_ofNat, Nat.mod_eq_of_lt (by omega)]

/-- One tick of a timer. -/
theorem tickByte_toNat (b : Byte) : (tickByte b).toNat = b.toNat - 1 := by
  unfold tickByte
  split
  · rename_i h; subst h; rfl
  · rename_i h
    have hb : b.toNat ≠ 0 := fun e => h (BitVec.eq_of_toNat_eq (by simpa using e))
    have := b.isLt
    rw [BitVec.toNat_sub, show (1 : Byte).toNat = 1 from rfl]
    omega

end Sys2Proof.Machine
end

