-- ==== Sys2Proof/Laws/PerInstr.lean ====
section
/-! SUPPORT. Laws stated per instruction, one lemma per constructor of Instr.

MatchesRow: an instruction's word lies in its own row of the opcode map (30_encoding.md R65), whatever its operands. -/

namespace Sys2Proof.Laws

/-- A word of format XKK or X under the mask of its high nibble. -/
theorem wordXKK_and_op (op x : Nibble) (kk : Byte) : wordXKK op x kk &&& 0xF000 = wordNNN op 0 := by
  refine BitVec.eq_of_getLsbD_eq fun i hi => ?_
  simp only [wordXKK, wordNNN, BitVec.getLsbD_and, BitVec.getLsbD_append]
  interval_cases i <;> simp

/-- A word of format X under the mask of its high nibble and low byte. -/
theorem wordXKK_and_sub (op x : Nibble) (kk : Byte) : wordXKK op x kk &&& 0xF0FF = wordXKK op 0 kk := by
  refine BitVec.eq_of_getLsbD_eq fun i hi => ?_
  simp only [wordXKK, BitVec.getLsbD_and, BitVec.getLsbD_append]
  interval_cases i <;> simp

/-- A word of format NNN under the mask of its high nibble. -/
theorem wordNNN_and_op (op : Nibble) (nnn : Imm12) : wordNNN op nnn &&& 0xF000 = wordNNN op 0 := by
  refine BitVec.eq_of_getLsbD_eq fun i hi => ?_
  simp only [wordNNN, BitVec.getLsbD_and, BitVec.getLsbD_append]
  interval_cases i <;> simp

/-- A word of format XY or XYN under the mask of its high nibble. -/
theorem wordXYN_and_op (op x y n : Nibble) : wordXYN op x y n &&& 0xF000 = wordNNN op 0 := by
  refine BitVec.eq_of_getLsbD_eq fun i hi => ?_
  simp only [wordXYN, wordNNN, BitVec.getLsbD_and, BitVec.getLsbD_append]
  interval_cases i <;> simp

/-- A word of format XY under the mask of its high and low nibbles. -/
theorem wordXYN_and_sub (op x y n : Nibble) : wordXYN op x y n &&& 0xF00F = wordXYN op 0 0 n := by
  refine BitVec.eq_of_getLsbD_eq fun i hi => ?_
  simp only [wordXYN, BitVec.getLsbD_and, BitVec.getLsbD_append]
  interval_cases i <;> simp

namespace MatchesRow

/-- The instruction's word is in the row of the opcode map that bears the instruction's mnemonic. -/
def Statement (i : Instr) : Prop :=
  ∃ row ∈ opcodeRows, row.mnemonic = i.mnemonic ∧ encode i &&& row.mask = row.value

theorem clearScreen : Statement (.clearScreen) :=
  ⟨⟨"ClearScreen", 0xFFFF, 0x00E0⟩, by decide, rfl, by decide⟩

theorem ret : Statement (.ret) :=
  ⟨⟨"Return", 0xFFFF, 0x00EE⟩, by decide, rfl, by decide⟩

theorem jump (nnn : Imm12) : Statement (.jump nnn) :=
  ⟨⟨"Jump", 0xF000, 0x1000⟩, by decide, rfl, (wordNNN_and_op 0x1 nnn).trans (by decide)⟩

theorem call (nnn : Imm12) : Statement (.call nnn) :=
  ⟨⟨"Call", 0xF000, 0x2000⟩, by decide, rfl, (wordNNN_and_op 0x2 nnn).trans (by decide)⟩

theorem skipEqImm (x : Nibble) (kk : Byte) : Statement (.skipEqImm x kk) :=
  ⟨⟨"SkipEqImm", 0xF000, 0x3000⟩, by decide, rfl, (wordXKK_and_op 0x3 x kk).trans (by decide)⟩

theorem skipNeImm (x : Nibble) (kk : Byte) : Statement (.skipNeImm x kk) :=
  ⟨⟨"SkipNeImm", 0xF000, 0x4000⟩, by decide, rfl, (wordXKK_and_op 0x4 x kk).trans (by decide)⟩

theorem skipEqReg (x y z : Nibble) : Statement (.skipEqReg x y z) :=
  ⟨⟨"SkipEqReg", 0xF000, 0x5000⟩, by decide, rfl, (wordXYN_and_op 0x5 x y z).trans (by decide)⟩

theorem loadImm (x : Nibble) (kk : Byte) : Statement (.loadImm x kk) :=
  ⟨⟨"LoadImm", 0xF000, 0x6000⟩, by decide, rfl, (wordXKK_and_op 0x6 x kk).trans (by decide)⟩

theorem addImm (x : Nibble) (kk : Byte) : Statement (.addImm x kk) :=
  ⟨⟨"AddImm", 0xF000, 0x7000⟩, by decide, rfl, (wordXKK_and_op 0x7 x kk).trans (by decide)⟩

theorem copy (x y : Nibble) : Statement (.copy x y) :=
  ⟨⟨"Copy", 0xF00F, 0x8000⟩, by decide, rfl, (wordXYN_and_sub 0x8 x y 0x0).trans (by decide)⟩

theorem or (x y : Nibble) : Statement (.or x y) :=
  ⟨⟨"Or", 0xF00F, 0x8001⟩, by decide, rfl, (wordXYN_and_sub 0x8 x y 0x1).trans (by decide)⟩

theorem and (x y : Nibble) : Statement (.and x y) :=
  ⟨⟨"And", 0xF00F, 0x8002⟩, by decide, rfl, (wordXYN_and_sub 0x8 x y 0x2).trans (by decide)⟩

theorem xor (x y : Nibble) : Statement (.xor x y) :=
  ⟨⟨"Xor", 0xF00F, 0x8003⟩, by decide, rfl, (wordXYN_and_sub 0x8 x y 0x3).trans (by decide)⟩

theorem add (x y : Nibble) : Statement (.add x y) :=
  ⟨⟨"Add", 0xF00F, 0x8004⟩, by decide, rfl, (wordXYN_and_sub 0x8 x y 0x4).trans (by decide)⟩

theorem sub (x y : Nibble) : Statement (.sub x y) :=
  ⟨⟨"Sub", 0xF00F, 0x8005⟩, by decide, rfl, (wordXYN_and_sub 0x8 x y 0x5).trans (by decide)⟩

theorem shiftRight (x y : Nibble) : Statement (.shiftRight x y) :=
  ⟨⟨"ShiftRight", 0xF00F, 0x8006⟩, by decide, rfl, (wordXYN_and_sub 0x8 x y 0x6).trans (by decide)⟩

theorem subReverse (x y : Nibble) : Statement (.subReverse x y) :=
  ⟨⟨"SubReverse", 0xF00F, 0x8007⟩, by decide, rfl, (wordXYN_and_sub 0x8 x y 0x7).trans (by decide)⟩

theorem shiftLeft (x y : Nibble) : Statement (.shiftLeft x y) :=
  ⟨⟨"ShiftLeft", 0xF00F, 0x800E⟩, by decide, rfl, (wordXYN_and_sub 0x8 x y 0xE).trans (by decide)⟩

theorem skipNeReg (x y z : Nibble) : Statement (.skipNeReg x y z) :=
  ⟨⟨"SkipNeReg", 0xF000, 0x9000⟩, by decide, rfl, (wordXYN_and_op 0x9 x y z).trans (by decide)⟩

theorem loadIndex (nnn : Imm12) : Statement (.loadIndex nnn) :=
  ⟨⟨"LoadIndex", 0xF000, 0xA000⟩, by decide, rfl, (wordNNN_and_op 0xA nnn).trans (by decide)⟩

theorem jumpPlusV0 (nnn : Imm12) : Statement (.jumpPlusV0 nnn) :=
  ⟨⟨"JumpPlusV0", 0xF000, 0xB000⟩, by decide, rfl, (wordNNN_and_op 0xB nnn).trans (by decide)⟩

theorem randMaskImm (x : Nibble) (kk : Byte) : Statement (.randMaskImm x kk) :=
  ⟨⟨"RandMaskImm", 0xF000, 0xC000⟩, by decide, rfl, (wordXKK_and_op 0xC x kk).trans (by decide)⟩

theorem drawSprite (x y n : Nibble) : Statement (.drawSprite x y n) :=
  ⟨⟨"DrawSprite", 0xF000, 0xD000⟩, by decide, rfl, (wordXYN_and_op 0xD x y n).trans (by decide)⟩

theorem skipIfPressed (x : Nibble) : Statement (.skipIfPressed x) :=
  ⟨⟨"SkipIfPressed", 0xF0FF, 0xE09E⟩, by decide, rfl, (wordXKK_and_sub 0xE x 0x9E).trans (by decide)⟩

theorem skipIfNotPressed (x : Nibble) : Statement (.skipIfNotPressed x) :=
  ⟨⟨"SkipIfNotPressed", 0xF0FF, 0xE0A1⟩, by decide, rfl, (wordXKK_and_sub 0xE x 0xA1).trans (by decide)⟩

theorem readDelay (x : Nibble) : Statement (.readDelay x) :=
  ⟨⟨"ReadDelay", 0xF0FF, 0xF007⟩, by decide, rfl, (wordXKK_and_sub 0xF x 0x07).trans (by decide)⟩

theorem waitKey (x : Nibble) : Statement (.waitKey x) :=
  ⟨⟨"WaitKey", 0xF0FF, 0xF00A⟩, by decide, rfl, (wordXKK_and_sub 0xF x 0x0A).trans (by decide)⟩

theorem setDelay (x : Nibble) : Statement (.setDelay x) :=
  ⟨⟨"SetDelay", 0xF0FF, 0xF015⟩, by decide, rfl, (wordXKK_and_sub 0xF x 0x15).trans (by decide)⟩

theorem setSound (x : Nibble) : Statement (.setSound x) :=
  ⟨⟨"SetSound", 0xF0FF, 0xF018⟩, by decide, rfl, (wordXKK_and_sub 0xF x 0x18).trans (by decide)⟩

theorem addIndex (x : Nibble) : Statement (.addIndex x) :=
  ⟨⟨"AddIndex", 0xF0FF, 0xF01E⟩, by decide, rfl, (wordXKK_and_sub 0xF x 0x1E).trans (by decide)⟩

theorem loadDigitSprite (x : Nibble) : Statement (.loadDigitSprite x) :=
  ⟨⟨"LoadDigitSprite", 0xF0FF, 0xF029⟩, by decide, rfl, (wordXKK_and_sub 0xF x 0x29).trans (by decide)⟩

theorem storeBCD (x : Nibble) : Statement (.storeBCD x) :=
  ⟨⟨"StoreBCD", 0xF0FF, 0xF033⟩, by decide, rfl, (wordXKK_and_sub 0xF x 0x33).trans (by decide)⟩

theorem regDump (x : Nibble) : Statement (.regDump x) :=
  ⟨⟨"RegDump", 0xF0FF, 0xF055⟩, by decide, rfl, (wordXKK_and_sub 0xF x 0x55).trans (by decide)⟩

theorem regLoad (x : Nibble) : Statement (.regLoad x) :=
  ⟨⟨"RegLoad", 0xF0FF, 0xF065⟩, by decide, rfl, (wordXKK_and_sub 0xF x 0x65).trans (by decide)⟩

end MatchesRow

end Sys2Proof.Laws
end

