-- ==== Sys2Proof/Laws/Step.lean ====
section
/-! SUPPORT. What the Step event can do, said once (40_step_cycle.md R80): the four ways it begins. -/

namespace Sys2Proof.Machine

variable {s : State}

/-- A word can be fetched from PC up to 4094 (R83). -/
theorem State.fetch_some (h : s.pc.toNat ≤ 4094) : s.fetch = some s.wordAtPc := by
  have hm : s.pc.toNat + 1 < Config.memSize := by unfold Config.memSize; omega
  unfold State.fetch State.memReadWord
  rw [if_pos hm]
  rfl

/-- Above it none can. -/
theorem State.fetch_none (h : 4094 < s.pc.toNat) : s.fetch = none := by
  have hm : ¬s.pc.toNat + 1 < Config.memSize := by unfold Config.memSize; omega
  unfold State.fetch State.memReadWord
  rw [if_neg hm]

/-- A waiting core polls KEY (R82). -/
theorem coreStep_of_waiting {w : Nibble} (h : s.err = none) (hw : s.wait = some w) :
    coreStep s = .next (s.drawn.awaitKey w s.keyNow) := by
  unfold coreStep
  rw [h, hw]

/-- A core that fetches runs the word at PC, PC advanced (R83, R84). -/
theorem coreStep_of_fetches (h : s.fetches) : coreStep s = runWord s.wordAtPc s.advance := by
  unfold coreStep
  rw [h.1, h.2.1, State.fetch_some h.2.2]

/-- A core whose PC cannot be fetched from faults there (R83). -/
theorem coreStep_of_fetch_fault (h : s.err = none) (hw : s.wait = none) (hp : 4094 < s.pc.toNat) :
    coreStep s = .next (s.raise .addressOutOfRange) := by
  unfold coreStep
  rw [h, hw, State.fetch_none hp]

/-- A decoded word is executed (R86). -/
theorem runWord_of_instr {ir : Word} {i : Instr} (h : decode ir = .instr i) : runWord ir s = exec i s := by
  unfold runWord
  rw [h]

/-- An Unsupported word raises its fault (R85). -/
theorem runWord_of_unsupported {ir : Word} (h : decode ir = .unsupported) :
    runWord ir s = .next (s.raise .unsupportedOpcode) := by
  unfold runWord
  rw [h]

/-! ### Inversions: what a next state comes from -/

/-- A next state of `onNext` comes from a next state. -/
theorem onNext_inv {f : State → State} {o : Host.Outcome State Fault Refusal} {t : State}
    (h : onNext f o = .next t) : ∃ u, o = .next u ∧ t = f u := by
  cases o with
  | next u => exact ⟨u, rfl, by cases h; rfl⟩
  | fault k => cases h
  | refused r => cases h

/-- Every way a step answers a next state: a Step, a TimerTick, a Reset, a Load in its window, or a change of the inputs. -/
theorem step_cases {s t : State} (h : step s = .next t) :
    (s.nextEvent = .step ∧ ∃ u, coreStep s.popEvent.closeLoad = .next u ∧ t = u.elapse) ∨
    (s.nextEvent = .timerTick ∧ t = s.popEvent.timerTick) ∨
    (s.nextEvent = .reset ∧ t = s.popEvent.resetEvent) ∨
    (∃ bytes, s.nextEvent = .load bytes ∧ s.env.loadOpen = true ∧ t = s.popEvent.loadEvent bytes) ∨
    (∃ e, e.font = s.env.font ∧ t = { s.popEvent with env := e }) := by
  unfold step runEvent at h
  cases he : s.nextEvent with
  | step => rw [he] at h; exact .inl ⟨rfl, onNext_inv h⟩
  | timerTick => rw [he] at h; cases h; exact .inr (.inl ⟨rfl, rfl⟩)
  | reset => rw [he] at h; cases h; exact .inr (.inr (.inl ⟨rfl, rfl⟩))
  | load bytes =>
    rw [he] at h
    dsimp only at h
    split at h
    · rename_i ho
      cases h; exact .inr (.inr (.inr (.inl ⟨bytes, rfl, ho, rfl⟩)))
    · cases h
  | setKey k => rw [he] at h; cases h; exact .inr (.inr (.inr (.inr ⟨{ s.popEvent.env with key := k }, rfl, rfl⟩)))
  | setRand k => rw [he] at h; cases h; exact .inr (.inr (.inr (.inr ⟨{ s.popEvent.env with rand := k }, rfl, rfl⟩)))
  | setTicks k => rw [he] at h; cases h; exact .inr (.inr (.inr (.inr ⟨{ s.popEvent.env with ticks := k }, rfl, rfl⟩)))

/-- Every way a Step ends (R80): halted, waiting, a fetch that faults, an Unsupported word, an instruction. -/
theorem coreStep_cases {s t : State} (h : coreStep s = .next t) :
    (s.err ≠ none ∧ t = s) ∨
    (s.err = none ∧ ∃ w, s.wait = some w ∧ t = s.drawn.awaitKey w s.keyNow) ∨
    (s.err = none ∧ s.wait = none ∧ 4094 < s.pc.toNat ∧ t = s.raise .addressOutOfRange) ∨
    (s.fetches ∧ decode s.wordAtPc = .unsupported ∧ t = s.advance.raise .unsupportedOpcode) ∨
    (s.fetches ∧ ∃ i, decode s.wordAtPc = .instr i ∧ exec i s.advance = .next t) := by
  cases he : s.err with
  | some k => unfold coreStep at h; rw [he] at h; cases h; exact .inl ⟨by simp, rfl⟩
  | none =>
    cases hw : s.wait with
    | some w => rw [coreStep_of_waiting he hw] at h; cases h; exact .inr (.inl ⟨rfl, w, rfl, rfl⟩)
    | none =>
      by_cases hp : s.pc.toNat ≤ 4094
      · rw [coreStep_of_fetches ⟨he, hw, hp⟩] at h
        cases hd : decode s.wordAtPc with
        | instr i => rw [runWord_of_instr hd] at h; exact .inr (.inr (.inr (.inr ⟨⟨he, hw, hp⟩, i, rfl, h⟩)))
        | unsupported => rw [runWord_of_unsupported hd] at h; cases h
                         exact .inr (.inr (.inr (.inl ⟨⟨he, hw, hp⟩, rfl, rfl⟩)))
      · rw [coreStep_of_fetch_fault he hw (by omega)] at h; cases h
        exact .inr (.inr (.inl ⟨rfl, rfl, by omega, rfl⟩))

/-- Stores change memory and ERR alone. -/
theorem State.storeBytes_rest (bs : List Byte) (s : State) (a : Nat) :
    ∃ m e, s.storeBytes a bs = { s with mem := m, err := e } := by
  obtain ⟨m, e, h, _⟩ := State.storeBytes_other bs s a
  exact ⟨m, e, h⟩

/-- Register loads change V and ERR alone. -/
theorem State.loadRegs_rest (rs : List Nibble) (s : State) (a : Nat) :
    ∃ v e, s.loadRegs a rs = { s with v := v, err := e } := by
  obtain ⟨v, e, h, _⟩ := State.loadRegs_other rs s a
  exact ⟨v, e, h⟩

/-- Every way an instruction ends, by what it writes (40_step_cycle.md R86): the cases later proofs go through instead of
unfolding `exec`. -/
theorem exec_cases {i : Instr} {s t : State} (h : exec i s = .next t) :
    (∃ nnn, i = .call nnn ∧
      ((s.depth.val < 16 ∧ ∃ u, s.push s.pc = .ok u ∧ t = u.setPc (addrOperand nnn)) ∨
       (¬s.depth.val < 16 ∧ t = s.raise .stackOverflow))) ∨
    (i = .ret ∧
      ((0 < s.depth.val ∧ ∃ a u, s.pop = .ok (a, u) ∧ t = u.setPc a) ∨
       (¬0 < s.depth.val ∧ t = s.raise .stackUnderflow))) ∨
    (i = .clearScreen ∧ t = (s.setFb 0).repaint) ∨
    (∃ x y n, i = .drawSprite x y n ∧
      ((∃ f b, t = ((s.setFb f).setV vf (flagByte b)).repaint) ∨ t = s.raise .addressOutOfRange)) ∨
    (∃ x, (i = .storeBCD x ∨ i = .regDump x) ∧ ∃ bs, t = s.storeBytes s.indexBase bs) ∨
    (∃ x, i = .regLoad x ∧ t = s.loadRegs s.indexBase (firstRegs x)) ∨
    (∃ a, i.mnemonic ∈ ["LoadIndex", "AddIndex", "LoadDigitSprite"] ∧ t = s.setI a) ∨
    (∃ b, i.mnemonic = "SetDelay" ∧ t = s.setDt b) ∨
    (∃ b, i.mnemonic = "SetSound" ∧ t = s.setSt b) ∨
    (∃ x, i = .waitKey x ∧ t = s.drawn.awaitKey x s.keyNow) ∨
    (∃ x kk, i = .randMaskImm x kk ∧ t = s.drawn.setV x (s.randNow &&& kk)) ∨
    ((∃ x, i = .skipIfPressed x ∨ i = .skipIfNotPressed x) ∧ ∃ c, t = s.drawn.skipIf c) ∨
    ((∃ x y z kk, i = .skipEqImm x kk ∨ i = .skipNeImm x kk ∨ i = .skipEqReg x y z ∨ i = .skipNeReg x y z) ∧
      ∃ c, t = s.skipIf c) ∨
    ((∃ nnn, i = .jump nnn ∧ t = s.setPc (addrOperand nnn)) ∨
      (∃ nnn, i = .jumpPlusV0 nnn ∧ t = s.setPc (addrOperand nnn + wideByte (s.getV 0)))) ∨
    ((∃ x y kk, i = .loadImm x kk ∨ i = .addImm x kk ∨ i = .copy x y ∨ i = .or x y ∨ i = .and x y ∨ i = .xor x y ∨
      i = .readDelay x) ∧ ∃ x b, t = s.setV x b) ∨
    ((∃ x y, i = .add x y ∨ i = .sub x y ∨ i = .subReverse x y ∨ i = .shiftRight x y ∨ i = .shiftLeft x y) ∧
      ∃ x f b, t = s.writeFlagged x f b) := by
  cases i with
  | call nnn =>
    left; refine ⟨nnn, rfl, ?_⟩
    unfold exec execCall at h
    by_cases hd : s.depth.val < 16
    · left; refine ⟨hd, _, State.push_ok hd, ?_⟩
      rw [State.push_ok hd] at h; cases h; rfl
    · right; refine ⟨hd, ?_⟩
      dsimp only at h
      rw [State.push_full hd] at h; cases h; rfl
  | ret =>
    right; left; refine ⟨rfl, ?_⟩
    unfold exec execReturn at h
    by_cases hd : 0 < s.depth.val
    · left; refine ⟨hd, _, _, State.pop_ok hd, ?_⟩
      rw [State.pop_ok hd] at h; cases h; rfl
    · right; refine ⟨hd, ?_⟩
      dsimp only at h
      rw [State.pop_empty hd] at h; cases h; rfl
  | clearScreen => cases h; simp
  | drawSprite x y n =>
    right; right; right; left; refine ⟨x, y, n, rfl, ?_⟩
    unfold exec execDrawSprite at h
    dsimp only at h
    split at h
    · cases h; exact .inl ⟨_, _, rfl⟩
    · cases h; exact .inr rfl
  | storeBCD x => cases h; right; right; right; right; left; exact ⟨x, .inl rfl, _, rfl⟩
  | regDump x => cases h; right; right; right; right; left; exact ⟨x, .inr rfl, _, rfl⟩
  | regLoad x =>
    cases h
    iterate 5 right
    left; exact ⟨x, rfl, rfl⟩
  | loadIndex x =>
    cases h
    iterate 6 right
    left; exact ⟨_, by simp [Instr.mnemonic], rfl⟩
  | addIndex x =>
    cases h
    iterate 6 right
    left; exact ⟨_, by simp [Instr.mnemonic], rfl⟩
  | loadDigitSprite x =>
    cases h
    iterate 6 right
    left; exact ⟨_, by simp [Instr.mnemonic], rfl⟩
  | setDelay x =>
    cases h
    iterate 7 right
    left; exact ⟨_, rfl, rfl⟩
  | setSound x =>
    cases h
    iterate 8 right
    left; exact ⟨_, rfl, rfl⟩
  | waitKey x =>
    cases h
    iterate 9 right
    left; exact ⟨_, rfl, rfl⟩
  | randMaskImm x kk =>
    cases h
    iterate 10 right
    left; exact ⟨_, _, rfl, rfl⟩
  | skipIfPressed x =>
    cases h
    iterate 11 right
    left; exact ⟨⟨x, .inl rfl⟩, _, rfl⟩
  | skipIfNotPressed x =>
    cases h
    iterate 11 right
    left; exact ⟨⟨x, .inr rfl⟩, _, rfl⟩
  | skipEqImm x kk =>
    cases h
    iterate 12 right
    left; exact ⟨⟨x, 0, 0, kk, by simp⟩, _, rfl⟩
  | skipNeImm x kk =>
    cases h
    iterate 12 right
    left; exact ⟨⟨x, 0, 0, kk, by simp⟩, _, rfl⟩
  | skipEqReg x y z =>
    cases h
    iterate 12 right
    left; exact ⟨⟨x, y, z, 0, by simp⟩, _, rfl⟩
  | skipNeReg x y z =>
    cases h
    iterate 12 right
    left; exact ⟨⟨x, y, z, 0, by simp⟩, _, rfl⟩
  | jump nnn =>
    cases h
    iterate 13 right
    left; exact .inl ⟨_, rfl, rfl⟩
  | jumpPlusV0 nnn =>
    cases h
    iterate 13 right
    left; exact .inr ⟨_, rfl, rfl⟩
  | loadImm x kk =>
    cases h
    iterate 14 right
    left; exact ⟨⟨x, 0, kk, by simp⟩, _, _, rfl⟩
  | addImm x kk =>
    cases h
    iterate 14 right
    left; exact ⟨⟨x, 0, kk, by simp⟩, _, _, rfl⟩
  | copy x y =>
    cases h
    iterate 14 right
    left; exact ⟨⟨x, y, 0, by simp⟩, _, _, rfl⟩
  | or x y =>
    cases h
    iterate 14 right
    left; exact ⟨⟨x, y, 0, by simp⟩, _, _, rfl⟩
  | and x y =>
    cases h
    iterate 14 right
    left; exact ⟨⟨x, y, 0, by simp⟩, _, _, rfl⟩
  | xor x y =>
    cases h
    iterate 14 right
    left; exact ⟨⟨x, y, 0, by simp⟩, _, _, rfl⟩
  | readDelay x =>
    cases h
    iterate 14 right
    left; exact ⟨⟨x, 0, 0, by simp⟩, _, _, rfl⟩
  | add x y =>
    cases h
    iterate 15 right
    exact ⟨⟨x, y, by simp⟩, _, _, _, rfl⟩
  | sub x y =>
    cases h
    iterate 15 right
    exact ⟨⟨x, y, by simp⟩, _, _, _, rfl⟩
  | subReverse x y =>
    cases h
    iterate 15 right
    exact ⟨⟨x, y, by simp⟩, _, _, _, rfl⟩
  | shiftRight x y =>
    cases h
    iterate 15 right
    exact ⟨⟨x, y, by simp⟩, _, _, _, rfl⟩
  | shiftLeft x y =>
    cases h
    iterate 15 right
    exact ⟨⟨x, y, by simp⟩, _, _, _, rfl⟩

end Sys2Proof.Machine
end

