-- ==== Sys2Proof/Tests/Slice0.lean ====
section
/-! SUPPORT. Small tests, each about one decoding or one Step. The expected values are the spec's own vectors, by their
numbers in 95_test_vectors.md, or the examples of the rules named. After them, one witness or more per obligation that has
hypotheses: a state and operands that meet all of them. -/

namespace Sys2Proof.Machine

/-! ### Helpers -/

/-- A state with its program counter's word in place, given to one Step. -/
def oneStep (ir : Word) (s : State) : Option State :=
  match coreStep (s.placeWord s.pc.toNat ir) with
  | .next t => some t
  | .fault _ => none
  | .refused _ => none

/-- One whole step of the machine. -/
def machineStep (s : State) : Option State :=
  match step s with
  | .next t => some t
  | .fault _ => none
  | .refused _ => none

/-- The reset state with one register set. -/
def withV (r : Nibble) (b : Byte) : State := State.reset.setV r b

/-- The reset state with two registers set. -/
def withVV (r : Nibble) (b : Byte) (q : Nibble) (c : Byte) : State := (State.reset.setV r b).setV q c

/-- The reset state with I set. -/
def withI (a : Word) : State := State.reset.setI a

/-- A state with a stack of the given depth. -/
def withDepth (d : Fin 17) : State := { State.reset with depth := d, stack := Vector.replicate 16 0x0345 }

/-- A state with bytes stored from an address. -/
def State.withBytes (s : State) (a : Nat) (bs : List Byte) : State := { s with mem := s.mem.writeAll a bs }

/-- A state with KEY held. -/
def State.withKey (s : State) (k : Option Nibble) : State := { s with env := { s.env with key := .held k } }

/-- A state with RAND held. -/
def State.withRand (s : State) (b : Byte) : State := { s with env := { s.env with rand := .held b } }

/-- A state with the host's next events. -/
def State.withSched (s : State) (es : List Event) : State := { s with env := { s.env with sched := es } }

/-- A framebuffer from its lit pixels. -/
def lit (idxs : List Nat) : BitVec 2048 := idxs.foldl (fun f i => f ||| BitVec.twoPow 2048 i) 0

/-! ### WellFormed (30_encoding.md R67, R69): each of the four checks refuses a term -/

theorem test_wf_skipEqReg : Instr.wellFormed (.skipEqReg 1 2 0xF) = false ∧ Instr.wellFormed (.skipEqReg 1 2 0) = true := by
  decide

theorem test_wf_skipNeReg : Instr.wellFormed (.skipNeReg 1 2 1) = false ∧ Instr.wellFormed (.skipNeReg 1 2 0) = true := by
  decide

theorem test_wf_shiftRight : Instr.wellFormed (.shiftRight 1 0xA) = false ∧ Instr.wellFormed (.shiftRight 1 0) = true := by
  decide

theorem test_wf_shiftLeft : Instr.wellFormed (.shiftLeft 1 3) = false ∧ Instr.wellFormed (.shiftLeft 1 0) = true := by
  decide

/-! ### Decoding: every constructor, by a word written out from the patterns of R65 -/

theorem test_decode_fixed : decode 0x00E0 = .instr .clearScreen ∧ decode 0x00EE = .instr .ret := by decide

theorem test_decode_nnn : decode 0x1AD3 = .instr (.jump 0xAD3) ∧ decode 0x2FD0 = .instr (.call 0xFD0) ∧
    decode 0xA2F0 = .instr (.loadIndex 0x2F0) ∧ decode 0xB300 = .instr (.jumpPlusV0 0x300) := by decide

theorem test_decode_xkk : decode 0x332A = .instr (.skipEqImm 3 0x2A) ∧ decode 0x4B0C = .instr (.skipNeImm 0xB 0x0C) ∧
    decode 0x6A3C = .instr (.loadImm 0xA 0x3C) ∧ decode 0x7220 = .instr (.addImm 2 0x20) ∧
    decode 0xC10F = .instr (.randMaskImm 1 0x0F) := by decide

theorem test_decode_skipReg : decode 0x512F = .instr (.skipEqReg 1 2 0xF) ∧ decode 0x9120 = .instr (.skipNeReg 1 2 0) := by
  decide

theorem test_decode_copy_logic : decode 0x8340 = .instr (.copy 3 4) ∧ decode 0x8121 = .instr (.or 1 2) ∧
    decode 0x8122 = .instr (.and 1 2) ∧ decode 0x8123 = .instr (.xor 1 2) := by decide

theorem test_decode_arith : decode 0x8124 = .instr (.add 1 2) ∧ decode 0x8125 = .instr (.sub 1 2) ∧
    decode 0x8127 = .instr (.subReverse 1 2) := by decide

theorem test_decode_shift : decode 0x81A6 = .instr (.shiftRight 1 0xA) ∧ decode 0x813E = .instr (.shiftLeft 1 3) := by decide

theorem test_decode_draw : decode 0xD21F = .instr (.drawSprite 2 1 0xF) := by decide

theorem test_decode_keys : decode 0xE49E = .instr (.skipIfPressed 4) ∧ decode 0xE4A1 = .instr (.skipIfNotPressed 4) ∧
    decode 0xF50A = .instr (.waitKey 5) := by decide

theorem test_decode_timers : decode 0xF307 = .instr (.readDelay 3) ∧ decode 0xF315 = .instr (.setDelay 3) ∧
    decode 0xF318 = .instr (.setSound 3) := by decide

theorem test_decode_index : decode 0xF21E = .instr (.addIndex 2) ∧ decode 0xF329 = .instr (.loadDigitSprite 3) ∧
    decode 0xF433 = .instr (.storeBCD 4) ∧ decode 0xF355 = .instr (.regDump 3) ∧ decode 0xF365 = .instr (.regLoad 3) := by
  decide

/-- X1 to X5. -/
theorem test_decode_unsupported_08 : decode 0x0000 = .unsupported ∧ decode 0x00E1 = .unsupported ∧
    decode 0x0123 = .unsupported ∧ decode 0x8128 = .unsupported ∧ decode 0x812F = .unsupported := by decide

/-- X6 to X9, E14. -/
theorem test_decode_unsupported_EF : decode 0xE19F = .unsupported ∧ decode 0xE000 = .unsupported ∧
    decode 0xF1FF = .unsupported ∧ decode 0xF000 = .unsupported ∧ decode 0xFFFF = .unsupported := by decide

/-- R44, R60, R68: the lower address holds the high byte; a byte alone is no word. -/
theorem test_decodeBytes : decodeBytes [0x1A, 0xD3, 0x77] = .word (.instr (.jump 0xAD3)) [0x77] ∧
    decodeBytes [0x1A] = .truncated := by decide

theorem test_decodeTableWord : decodeTableWord 16 0x6A3C = some (.loadImm 0xA 0x3C) ∧ decodeTableWord 16 0x0000 = none := by
  decide

/-! ### Control transfer -/

/-- E10. -/
theorem test_jump : (oneStep 0x1AD3 State.reset).map (·.pc) = some 0x0AD3 := by decide

/-- E11: the pushed address is the fetch address plus 2. -/
theorem test_call : (oneStep 0x2FD0 State.reset).map (fun t => (t.pc, t.sp, t.stack[0])) = some (0x0FD0, 0, 0x0202) := by
  decide

/-- T5. -/
theorem test_call_overflow : (oneStep 0x2ABC (withDepth 16)).map (fun t => (t.pc, t.sp, t.err)) =
    some (0x0202, 15, some .stackOverflow) := by decide

/-- T7. -/
theorem test_return : (oneStep 0x00EE (withDepth 1)).map (fun t => (t.pc, t.sp)) = some (0x0345, -1) := by decide

/-- T4. -/
theorem test_return_underflow : (oneStep 0x00EE State.reset).map (fun t => (t.pc, t.sp, t.err)) =
    some (0x0202, -1, some .stackUnderflow) := by decide

/-- T3. -/
theorem test_jumpPlusV0 : (oneStep 0xBFFF (withV 0 0xFF)).map (·.pc) = some 0x10FE := by decide

/-- T13, T11. -/
theorem test_skipEqImm : (oneStep 0x332A (withV 3 0x2A)).map (·.pc) = some 0x0204 ∧
    (oneStep 0x332A (withV 3 0x2B)).map (·.pc) = some 0x0202 := by decide

/-- T14, T12. -/
theorem test_skipNeImm : (oneStep 0x432A (withV 3 0x2A)).map (·.pc) = some 0x0202 ∧
    (oneStep 0x4300 (withV 3 0x2A)).map (·.pc) = some 0x0204 := by decide

/-- T8: the low nibble is ignored. -/
theorem test_skipEqReg : (oneStep 0x512F (withVV 1 7 2 7)).map (·.pc) = some 0x0204 := by decide

/-- T9, T10. -/
theorem test_skipNeReg : (oneStep 0x9120 (withVV 1 7 2 7)).map (·.pc) = some 0x0202 ∧
    (oneStep 0x9120 (withVV 1 7 2 8)).map (·.pc) = some 0x0204 := by decide

/-! ### Load, arithmetic and logic -/

/-- E1. -/
theorem test_loadImm : (oneStep 0x6A3C State.reset).map (fun t => (t.getV 0xA, t.pc)) = some (0x3C, 0x0202) := by decide

/-- A1: no flag. -/
theorem test_addImm : (oneStep 0x7101 (withVV 1 0xFF 15 7)).map (fun t => (t.getV 1, t.getV 15)) = some (0, 7) := by decide

/-- A3. -/
theorem test_copy : (oneStep 0x8340 (withV 4 0x99)).map (fun t => (t.getV 3, t.getV 4)) = some (0x99, 0x99) := by decide

/-- A4. -/
theorem test_or : (oneStep 0x8121 (withVV 1 0x0F 2 0xF0)).map (·.getV 1) = some 0xFF := by decide

/-- A5. -/
theorem test_and : (oneStep 0x8122 (withVV 1 0xF0 2 0x3C)).map (·.getV 1) = some 0x30 := by decide

/-- A6. -/
theorem test_xor : (oneStep 0x8123 (withVV 1 0xF0 2 0x3C)).map (·.getV 1) = some 0xCC := by decide

/-- E3. -/
theorem test_add : (oneStep 0x8124 (withVV 1 0xF0 2 0x20)).map (fun t => (t.getV 1, t.getV 15)) = some (0x10, 1) := by decide

/-- A9, A10: the sum wins over the carry; the old VF is an operand. -/
theorem test_add_vf : (oneStep 0x8F24 (withVV 15 0xF0 2 0x20)).map (·.getV 15) = some 0x10 ∧
    (oneStep 0x81F4 (withVV 1 0xFF 15 1)).map (fun t => (t.getV 1, t.getV 15)) = some (0, 1) := by decide

/-- E4: the comparison is strict. -/
theorem test_sub : (oneStep 0x8125 (withVV 1 0x20 2 0x20)).map (fun t => (t.getV 1, t.getV 15)) = some (0, 0) ∧
    (oneStep 0x8125 (withVV 1 0x00 2 0x01)).map (fun t => (t.getV 1, t.getV 15)) = some (0xFF, 0) := by decide

/-- A12. -/
theorem test_sub_vf : (oneStep 0x8F15 (withVV 15 3 1 5)).map (·.getV 15) = some 0xFE := by decide

/-- E4: the minuend is V[y]. -/
theorem test_subReverse : (oneStep 0x8127 (withVV 1 0x10 2 0x20)).map (fun t => (t.getV 1, t.getV 15)) = some (0x10, 1) ∧
    (oneStep 0x8127 (withVV 1 0x20 2 0x10)).map (fun t => (t.getV 1, t.getV 15)) = some (0xF0, 0) := by decide

/-- X11: y is ignored, and not written. -/
theorem test_shiftRight : (oneStep 0x81A6 (withVV 1 4 0xA 0xFF)).map (fun t => (t.getV 1, t.getV 15, t.getV 0xA)) =
    some (2, 0, 0xFF) := by decide

/-- A16: the shifted value wins over the flag. -/
theorem test_shiftRight_vf : (oneStep 0x8F06 (withV 15 6)).map (·.getV 15) = some 3 := by decide

/-- E5. -/
theorem test_shiftLeft : (oneStep 0x810E (withV 1 0x81)).map (fun t => (t.getV 1, t.getV 15)) = some (2, 1) := by decide

/-- A17. -/
theorem test_shiftLeft_vf : (oneStep 0x8F0E (withV 15 0xC1)).map (·.getV 15) = some 0x82 := by decide

/-- A20, A21. -/
theorem test_randMaskImm : (oneStep 0xC10F (State.reset.withRand 0xB7)).map (·.getV 1) = some 7 ∧
    (oneStep 0xC1F0 (State.reset.withRand 0xB7)).map (·.getV 1) = some 0xB0 := by decide

/-! ### Index register and memory transfer -/

/-- M1. -/
theorem test_loadIndex : (oneStep 0xA2F0 State.reset).map (·.i) = some 0x02F0 := by decide

/-- M2, M3: modulo 65536, not 4096. -/
theorem test_addIndex : (oneStep 0xF01E ((withI 0x0FFF).setV 0 1)).map (·.i) = some 0x1000 ∧
    (oneStep 0xF01E ((withI 0xFFFF).setV 0 1)).map (·.i) = some 0 := by decide

/-- M5, M7: an offset from address 0, V[x] unmasked. -/
theorem test_loadDigitSprite : (oneStep 0xF029 (withV 0 0x10)).map (·.i) = some 0x0050 ∧
    (oneStep 0xF329 (withV 3 0xFF)).map (·.i) = some 0x04FB := by decide

/-- M8. -/
theorem test_storeBCD : (oneStep 0xF433 ((withI 0x300).setV 4 0x9C)).map
    (fun t => (t.byteAt 0x300, t.byteAt 0x301, t.byteAt 0x302, t.i)) = some (1, 5, 6, 0x300) := by decide

/-- M12: the writes before the fault are done. -/
theorem test_storeBCD_fault : (oneStep 0xF133 ((withI 0x0FFE).setV 1 0xFF)).map
    (fun t => (t.byteAt 0xFFE, t.byteAt 0xFFF, t.err, t.pc)) = some (2, 5, some .addressOutOfRange, 0x0202) := by decide

/-- M20: V[x] itself is not stored. -/
theorem test_regDump : (oneStep 0xF255 (((withVV 0 0x11 1 0x22).setV 2 0x33).setI 0x400)).map
    (fun t => (t.byteAt 0x400, t.byteAt 0x401, t.byteAt 0x402)) = some (0x11, 0x22, 0) := by decide

/-- M14: x = 0 touches no address. -/
theorem test_regDump_zero : (oneStep 0xF055 (withI 0x2000)).map (·.err) = some none := by decide

/-- R125: the example of RegLoad. -/
theorem test_regLoad : (oneStep 0xF265 (((withI 0x400).setV 2 0x55).withBytes 0x400 [0xAA, 0xBB, 0xCC])).map
    (fun t => (t.getV 0, t.getV 1, t.getV 2)) = some (0xAA, 0xBB, 0x55) := by decide

/-- M17: the registers loaded before the fault keep their new values. -/
theorem test_regLoad_fault : (oneStep 0xF365 (((withI 0x0FFE).setV 2 0x55).withBytes 0xFFE [0xAA, 0xBB])).map
    (fun t => (t.getV 0, t.getV 1, t.getV 2, t.err)) = some (0xAA, 0xBB, 0x55, some .addressOutOfRange) := by decide

/-! ### Display -/

/-- DS9. -/
theorem test_clearScreen : (oneStep 0x00E0 ((withV 15 1).setFb (lit [0, 5, 2047]))).map
    (fun t => (t.fb, t.getV 15, t.env.repaints)) = some (0, 1, 1) := by decide +kernel

/-- R133's example, DS10: the columns wrap on the same row. -/
theorem test_drawSprite_wrap : (oneStep 0xD121 (((withVV 1 61 2 30).setI 0x300).withBytes 0x300 [0xFF])).map
    (fun t => (t.fb, t.getV 15, t.env.repaints)) =
      some (lit [1920, 1921, 1922, 1923, 1924, 1981, 1982, 1983], 0, 1) := by decide +kernel

/-- DS5: a collision. -/
theorem test_drawSprite_collision : (oneStep 0xD121
    (((withVV 1 4 2 1).setI 0x300).withBytes 0x300 [0xA0] |>.setFb (lit [68, 69]))).map (fun t => (t.fb, t.getV 15)) =
      some (lit [69, 70], 1) := by decide +kernel

/-! ### Keypad and timers -/

/-- K4, K8: V[x] is not masked. -/
theorem test_skipIfPressed : (oneStep 0xE19E ((withV 1 7).withKey (some 7))).map (·.pc) = some 0x0204 ∧
    (oneStep 0xE19E ((withV 1 0x17).withKey (some 7))).map (·.pc) = some 0x0202 := by decide

/-- K2, K5. -/
theorem test_skipIfNotPressed : (oneStep 0xE1A1 (State.reset.withKey none)).map (·.pc) = some 0x0204 ∧
    (oneStep 0xE1A1 ((withV 1 7).withKey (some 7))).map (·.pc) = some 0x0202 := by decide

/-- K10, K11. -/
theorem test_waitKey : (oneStep 0xFF0A (State.reset.withKey (some 0xF))).map (fun t => (t.getV 15, t.status)) =
      some (0x0F, .ok) ∧
    (oneStep 0xF50A (State.reset.withKey none)).map (fun t => (t.wait, t.pc, t.status)) =
      some (some 5, 0x0202, .waiting) := by decide

/-- K13. -/
theorem test_waiting_step : (oneStep 0xFFFF ((State.reset.setWait (some 5)).withKey (some 0xB))).map
    (fun t => (t.getV 5, t.wait, t.pc)) = some (0x0B, none, 0x0200) := by decide

/-- K14. -/
theorem test_readDelay : (oneStep 0xF307 (State.reset.setDt 0x2A)).map (·.getV 3) = some 0x2A := by decide

/-- K15. -/
theorem test_setDelay : (oneStep 0xF315 (withV 3 0x3C)).map (·.dt) = some 0x3C := by decide

/-- K16. -/
theorem test_setSound : (oneStep 0xF318 (withV 3 5)).map (·.st) = some 5 := by decide

/-! ### The Step and the other events -/

/-- E14, X1. -/
theorem test_unsupported : (oneStep 0xFFFF State.reset).map (fun t => (t.pc, t.status)) =
    some (0x0202, .fault .unsupportedOpcode) := by decide

/-- T1, the second Step: PC stays. -/
theorem test_fetch_fault : (match coreStep (State.reset.setPc 0x0FFF) with
    | .next t => some (t.pc, t.err) | .fault _ => none | .refused _ => none) =
      some (0x0FFF, some .addressOutOfRange) := by decide

/-- The timer vectors: (DT, ST) = (2, 1) ticks to (1, 0). -/
theorem test_timerTick : (machineStep (((State.reset.setDt 2).setSt 1).withSched [.timerTick])).map (fun t => (t.dt, t.st)) =
    some (1, 0) := by decide

/-- RS3. -/
theorem test_load : (machineStep (State.reset.withSched [.load [0x12, 0x00]])).map
    (fun t => (t.byteAt 0x200, t.byteAt 0x201, t.pc)) = some (0x12, 0, 0x0200) := by decide

/-- A Load after the first Step is refused by name (R184). -/
theorem test_load_late : (match step { State.reset with env := { Env.reset with sched := [.load []], loadOpen := false } } with
    | .refused r => some r | .next _ => none | .fault _ => none) = some .loadOutsideWindow := by decide

/-- RS7: Reset leaves the halted state. -/
theorem test_reset : (machineStep ((State.reset.raise .unsupportedOpcode).withSched [.reset])).map (·.err) = some none := by
  decide

/-- R6 (a): a machine with another FONT seeds it at Reset, and the cells around stay 0. -/
theorem test_reset_other_font : (machineStep { State.reset with
    env := { Env.reset with sched := [.reset], font := Vector.replicate 80 0xA5 } }).map
      (fun t => (t.byteAt 0x04F, t.byteAt 0x050, t.byteAt 0x09F, t.byteAt 0x0A0)) = some (0, 0xA5, 0xA5, 0) := by decide

/-- RS1: the font's first and last glyph and the cells around. -/
theorem test_reset_font : State.reset.byteAt 0x04F = 0 ∧ State.reset.byteAt 0x050 = 0xF0 ∧ State.reset.byteAt 0x051 = 0x90 ∧
    State.reset.byteAt 0x09B = 0xF0 ∧ State.reset.byteAt 0x09F = 0x80 ∧ State.reset.byteAt 0x0A0 = 0 := by decide

/-- A word placed where step fetches runs as the first instruction after reset. -/
theorem test_withFetchWord : (machineStep (State.reset.withFetchWord 16 0x6A3C)).map (fun t => (t.getV 0xA, t.pc)) =
    some (0x3C, 0x0202) := by decide

/-! ### Witnesses: for every obligation with hypotheses, a concrete state and operands that meet all of them together; for
one with several clauses, one for each clause, at a boundary of its range -/

theorem witness_EncodeOfDecodedWord : decode 0x512F = .instr (.skipEqReg 1 2 0xF) := by decide

theorem witness_OpcodeMapSelectsKind : (⟨"RegLoad", 0xF0FF, 0xF065⟩ : OpcodeRow) ∈ opcodeRows ∧
    (0xFF65 : Word) &&& 0xF0FF = 0xF065 ∧ ∃ i, decode 0xFF65 = .instr i ∧ i.mnemonic = "RegLoad" :=
  ⟨by decide, by decide, .regLoad 0xF, by decide, rfl⟩

theorem witness_IgnoredNibblesDoNothing : fieldOp 0x512F = 0x5 ∧ fieldOp 0x912F = 0x9 := by decide

/-- PC at 4094, the last address a word is fetched from. -/
def lastFetch : State := (State.reset.setPc 4094).withBytes 4094 [0x2A, 0xBC]

theorem witness_StepRunsDecodedInstruction : lastFetch.nextEvent = .step ∧ lastFetch.fetches ∧
    decode lastFetch.wordAtPc = .instr (.call 0xABC) := by
  refine ⟨rfl, ⟨rfl, rfl, ?_⟩, ?_⟩ <;> decide

theorem witness_UnsupportedWordFaults : State.reset.fetches ∧ decode State.reset.wordAtPc = .unsupported := by
  refine ⟨⟨rfl, rfl, ?_⟩, ?_⟩ <;> decide

theorem witness_FetchOutOfRangeFaults : (State.reset.setPc 4095).err = none ∧ (State.reset.setPc 4095).wait = none ∧
    4094 < (State.reset.setPc 4095).pc.toNat := by decide

/-- The first two clauses; the third is met as in `witness_FetchOutOfRangeFaults`. -/
theorem witness_PcAfterEachInstruction : lastFetch.fetches ∧ decode lastFetch.wordAtPc = .instr (.call 0xABC) ∧
    lastFetch.depth.val < 16 := by
  refine ⟨⟨rfl, rfl, ?_⟩, ?_, ?_⟩ <;> decide

theorem witness_HaltedUntilReset : (State.reset.raise .stackOverflow).err ≠ none ∧
    (State.reset.raise .stackOverflow).nextEvent ≠ .reset ∧
    ∃ t, step (State.reset.raise .stackOverflow) = .next t := ⟨by decide, by decide, _, rfl⟩

theorem witness_FaultsByInstruction : State.reset.err = none ∧ exec .ret State.reset = .next (State.reset.raise .stackUnderflow) :=
  ⟨rfl, rfl⟩

/-- For AddResult, SubResults, ShiftResults and FlagWriters: a register that is not VF. -/
theorem witness_notVf : (14 : Nibble) ≠ vf := by decide

/-- CallResult and StackOperations: the last depth that takes a push, and the full stack. -/
theorem witness_CallResult : (withDepth 15).depth.val < 16 ∧ (withDepth 16).sp = 15 := by decide

/-- ReturnResult and StackOperations: the least depth that gives a pop, with bounded addresses, and the empty stack. -/
theorem witness_ReturnResult : 0 < (withDepth 1).depth.val ∧ (withDepth 1).pcBounded ∧ State.reset.sp = -1 :=
  ⟨by decide, ⟨by decide, fun k h hk => by
    have : k = 0 := by
      change k < 1 at hk
      omega
    subst this
    show (0x0345 : Word).toNat ≤ 0x1000
    decide⟩, by decide⟩

/-- The last clause of StackOperations: room for two. -/
theorem witness_StackOperations : (withDepth 14).sp < 14 := by decide

/-- LoadDigitSpriteResult: the digit whose glyph is reached, and one below 16 that reaches none. -/
theorem witness_LoadDigitSpriteResult : (withV 3 0x1F).getV 3 = 0x1F ∧ 0x1F * 5 = 0x050 + 5 * 15 := by decide

/-- StoreBCDResult: the last I with room for three bytes, the first without, and one with no room at all. -/
theorem witness_StoreBCDResult : (withI 4093).memWf ∧ (withI 4093).i.toNat + 2 ≤ 4095 ∧ 4095 < (withI 4094).i.toNat + 2 ∧
    4095 < (withI 0xFFFF).i.toNat + 2 := ⟨rfl, by decide, by decide, by decide⟩

/-- RegDumpResult and RegLoadResult: x = 0 at any I, the last I with room for 15 bytes, and the first without. -/
theorem witness_RegDumpResult : (withI 4081).memWf ∧ (withI 4081).i.toNat + (15 : Nibble).toNat ≤ 4096 ∧
    (15 : Nibble) ≠ 0 ∧ 4096 < (withI 4082).i.toNat + (15 : Nibble).toNat := ⟨rfl, by decide, by decide, by decide⟩

theorem witness_RegDumpRegLoadRoundTrip : ∃ t u, (withVV 0 1 1 2).memWf ∧
    (withVV 0 1 1 2).i.toNat + (2 : Nibble).toNat ≤ 4096 ∧ exec (.regDump 2) (withVV 0 1 1 2) = .next t ∧ u.i = t.i ∧
    u.mem = t.mem ∧ u ≠ t :=
  ⟨_, ((withVV 0 1 1 2).withBytes 0 [1, 2]).setV 0 9, rfl, by decide, rfl, rfl, by decide, by decide +kernel⟩

/-- PixelCoordinatesBijection: the last pixel. -/
theorem witness_PixelCoordinatesBijection : 2047 < 2048 ∧ 63 < 64 ∧ 31 < 32 ∧ posToIndex 63 31 = 2047 := by decide

/-- SpriteCompositing: a set pixel under a 1 bit, and the pixel that is one wrap away. -/
theorem witness_SpriteCompositing : spriteBit 61 5 [0xFF] 324 = true ∧ spriteBit 61 5 [0xFF] 325 = false ∧
    spriteBit 61 5 [0xFF] 381 = true := by decide

/-- SpriteWrapsAcrossClipsBelow: the first start row below the screen. -/
theorem witness_SpriteWrapsAcrossClipsBelow : 32 ≤ 32 ∧ drawSprite 61 32 [0xFF] 1 = (1, false) := by decide +kernel

/-- DrawSpriteResult: the last I in range for 15 rows, n = 0 at any I, and the first I out of range. -/
theorem witness_DrawSpriteResult : (withI 4081).i.toNat + (15 : Nibble).toNat ≤ 4096 ∧ (15 : Nibble) ≠ 0 ∧
    4096 < (withI 4082).i.toNat + (15 : Nibble).toNat := by decide

/-- KeypadSkips and WaitKeyResult: a key that is the register's value, one that is not, and none. -/
theorem witness_KeypadSkips : ((withV 1 7).withKey (some 7)).keyNow = some 7 ∧
    (7 : Nibble).toNat = (((withV 1 7).withKey (some 7)).getV 1).toNat ∧
    (7 : Nibble).toNat ≠ (((withV 1 0x17).withKey (some 7)).getV 1).toNat ∧
    (State.reset.withKey none).keyNow = none := by decide

theorem witness_WaitingStepPollsKey : ((State.reset.setWait (some 5)).withKey none).err = none ∧
    ((State.reset.setWait (some 5)).withKey none).wait = some 5 ∧
    ((State.reset.setWait (some 5)).withKey none).keyNow = none ∧
    ((State.reset.setWait (some 5)).withKey (some 0xB)).keyNow = some 0xB := by decide

/-- TimerTickEventNeverHeld: a halted core with a TimerTick next. -/
theorem witness_TimerTickEventNeverHeld : ((State.reset.raise .stackOverflow).withSched [.timerTick]).env.sched =
    .timerTick :: [] := by decide

/-- MemReadWordBigEndian and MemWriteThenRead: the last address of each kind and the first beyond it. -/
theorem witness_MemWriteThenRead : State.reset.memWf ∧ 4094 + 1 ≤ 4095 ∧ 4095 < 4095 + 1 ∧ 4095 ≤ 4095 ∧ 4095 < 4096 ∧
    (0 : Nat) ≠ 4095 := ⟨rfl, by decide, by decide, by decide, by decide, by decide⟩

/-- StoredInstructionIsFetched at the last address a word is fetched from. -/
theorem witness_StoredInstructionIsFetched : ∃ t, ((withI 4094).setPc 4094).memWf ∧
    ((withI 4094).setPc 4094).i = ((withI 4094).setPc 4094).pc ∧ ((withI 4094).setPc 4094).pc.toNat ≤ 4094 ∧
    exec (.regDump 2) ((withI 4094).setPc 4094) = .next t := ⟨_, rfl, rfl, by decide, rfl⟩

/-- WhoWritesWhat: an instruction that changes I. -/
theorem witness_WhoWritesWhat : ∃ t, exec (.loadIndex 0x2F0) State.reset = .next t ∧ t.i ≠ State.reset.i :=
  ⟨_, rfl, by decide⟩

/-- FlagWriters: one instruction of each list, and a DrawSprite that does not fault. -/
theorem witness_FlagWriters : (∃ t, exec (.addImm 1 1) State.reset = .next t) ∧ (∃ t, exec (.add 1 2) State.reset = .next t) ∧
    ∃ t, exec (.drawSprite 1 2 0) State.reset = .next t ∧ t.err = State.reset.err ∧ State.reset.err = none :=
  ⟨⟨_, rfl⟩, ⟨_, rfl⟩, _, rfl, rfl, rfl⟩

/-- The three invariants: a state that meets them and steps, running an instruction that stores. -/
theorem witness_StepKeeps : ∃ t, (State.reset.withFetchWord 16 0xF433).memWf ∧
    (State.reset.withFetchWord 16 0xF433).oneLatch ∧ (State.reset.withFetchWord 16 0xF433).pcBounded ∧
    step (State.reset.withFetchWord 16 0xF433) = .next t :=
  ⟨_, by unfold State.memWf; decide, .inl rfl, ⟨by decide, fun k _ hk => absurd hk (Nat.not_lt_zero k)⟩, rfl⟩

/-- ResetValues: the last cell of the font and its neighbours. -/
theorem witness_ResetValues : 79 < 80 ∧ (0x04F < 0x050 ∨ 0x09F < 0x04F) ∧ (0x0A0 < 0x050 ∨ 0x09F < 0x0A0) := by decide

/-- ResetEventRestoresReset: a halted core with a Reset next (its second clause is met by any step, as in
`witness_StepKeeps`). -/
theorem witness_ResetEventRestoresReset : ((State.reset.raise .stackOverflow).withSched [.reset]).env.sched =
    .reset :: [] := by decide

/-- LoadPlacesProgram: the longest program that fits and the shortest that does not. -/
theorem witness_LoadPlacesProgram :
    (State.reset.withSched [.load (List.replicate 3584 1)]).memWf ∧
    (State.reset.withSched [.load (List.replicate 3584 1)]).env.sched = .load (List.replicate 3584 1) :: [] ∧
    (State.reset.withSched [.load (List.replicate 3584 1)]).env.loadOpen = true ∧
    (List.replicate 3584 (1 : Byte)).length ≤ 3584 ∧ 3584 < (List.replicate 3585 (1 : Byte)).length :=
  ⟨rfl, rfl, rfl, by rw [List.length_replicate], by rw [List.length_replicate]; omega⟩

/-- EndedRunStands: a Jump to its own address (RS8). -/
theorem witness_EndedRunStands : (State.reset.withFetchWord 16 0x1200).endedNormally := by
  refine ⟨rfl, rfl, ?_, ?_⟩ <;> decide

/-- DeadStackCellsUnobservable: two states that differ in a dead cell and step. -/
theorem witness_DeadStackCellsUnobservable : ∃ s', SameButDeadCells State.reset (withDepth 0) ∧
    State.reset ≠ withDepth 0 ∧ step State.reset = .next s' :=
  ⟨_, ⟨rfl, fun k _ hk => absurd hk (Nat.not_lt_zero k)⟩, by decide +kernel, rfl⟩

/-- InputsMatterToTheirReaders: two states that differ in KEY alone and two that differ in RAND alone. -/
theorem witness_InputsMatterToTheirReaders : (∃ s', (Instr.add 1 2).mnemonic ∉ ["SkipIfPressed", "SkipIfNotPressed", "WaitKey"] ∧
    SameButKey State.reset (State.reset.withKey (some 3)) ∧ exec (.add 1 2) State.reset = .next s') ∧
    ∃ s', (Instr.waitKey 1).mnemonic ≠ "RandMaskImm" ∧ SameButRand State.reset (State.reset.withRand 3) ∧
      exec (.waitKey 1) State.reset = .next s' :=
  ⟨⟨_, by decide, rfl, rfl⟩, _, by decide, rfl, rfl⟩

end Sys2Proof.Machine
end

section
/-! The values after reset, for every FONT (70_reset_and_hazards.md R181, R182), read through the model's observations:
registers, bytes of memory, pixels, SP and the status. -/

namespace Sys2Proof.Machine

/-- A cell of the default FONT is the cell of its list. -/
theorem defaultFont_getElem {k : Nat} (h : k < 80) : defaultFont[k] = font.getD k 0 := by
  have hk : k < font.length := h
  rw [List.getD_eq_getElem font 0 hk]
  rfl

/-- An all-clear framebuffer has no lit pixel. -/
@[simp] theorem pixel_zero (idx : Nat) : pixel 0 idx = false := BitVec.getLsbD_zero

section
variable (f : FontTable)

@[simp] theorem State.resetWith_getV (q : Nibble) : (State.resetWith f).getV q = 0 := by simp [State.getV]

@[simp] theorem State.resetWith_sp : (State.resetWith f).sp = -1 := by simp [State.sp]

@[simp] theorem State.resetWith_status : (State.resetWith f).status = .ok := rfl

/-- The bytes of FONT stand from 0x050. -/
theorem State.resetWith_byteAt_font {k : Nat} (h : k < 80) : (State.resetWith f).byteAt (0x050 + k) = f[k] := by
  have hin : 0x050 ≤ 0x050 + k ∧ 0x050 + k - 0x050 < 80 := by omega
  rw [State.byteAt, State.resetWith_mem, Memory.read_seeded, dif_pos hin]
  simp only [Nat.add_sub_cancel_left]

/-- Memory below and above the font is zero. -/
theorem State.resetWith_byteAt_of_outside {a : Nat} (h : a < 0x050 ∨ 0x09F < a) : (State.resetWith f).byteAt a = 0 := by
  have hout : ¬(0x050 ≤ a ∧ a - 0x050 < 80) := by omega
  rw [State.byteAt, State.resetWith_mem, Memory.read_seeded, dif_neg hout]

end

/-- Settles O55, part by part: memory by what seeded memory reads as, the rest by the fields of the reset state. -/
theorem resetValues : Obligations.ResetValues := by
  refine ⟨State.resetWith_default, fun _ h => defaultFont_getElem h, fun f => ?_⟩
  refine ⟨State.resetWith_pc f, State.resetWith_sp f, fun _ h => State.resetWith_byteAt_font f h,
    fun _ h => State.resetWith_byteAt_of_outside f h, State.resetWith_getV f, ?_⟩
  exact ⟨State.resetWith_i f, State.resetWith_dt f, State.resetWith_st f, pixel_zero, State.resetWith_wait f,
    State.resetWith_err f, State.resetWith_status f⟩

end Sys2Proof.Machine
end

section
/-! What the instructions with more than one ending do, one equation per ending, and which parts of the state the shared
operations of the others leave (40_step_cycle.md R86). -/

namespace Sys2Proof.Machine

variable {s t u : State}

/-! ### The instructions with more than one ending -/

theorem exec_call_of_push {nnn : Imm12} (h : s.push s.pc = .ok u) :
    exec (.call nnn) s = .next (u.setPc (addrOperand nnn)) := by
  simp only [exec, execCall, h]

theorem exec_call_of_full {nnn : Imm12} (h : ¬s.depth.val < 16) : exec (.call nnn) s = .next (s.raise .stackOverflow) := by
  simp only [exec, execCall, State.push_full h]

theorem exec_ret_of_pop {a : Word} (h : s.pop = .ok (a, u)) : exec .ret s = .next (u.setPc a) := by
  simp only [exec, execReturn, h]

theorem exec_ret_of_empty (h : ¬0 < s.depth.val) : exec .ret s = .next (s.raise .stackUnderflow) := by
  simp only [exec, execReturn, State.pop_empty h]

/-- DrawSprite draws, sets VF to a flag and pulses REPAINT, or raises its fault (44_display.md R133). -/
theorem exec_drawSprite_cases (x y n : Nibble) (s : State) :
    (∃ f c, exec (.drawSprite x y n) s = .next ((s.setFb f).setV vf (flagByte c)).repaint) ∨
      exec (.drawSprite x y n) s = .next (s.raise .addressOutOfRange) := by
  simp only [exec, execDrawSprite]
  cases s.readBytes s.indexBase n.toNat with
  | some rows => exact .inl ⟨_, _, rfl⟩
  | none => exact .inr rfl

/-! ### What stores, register loads and a sampled KEY leave -/

@[simp] theorem State.storeBytes_getV (bs : List Byte) (s : State) (a : Nat) (q : Nibble) :
    (s.storeBytes a bs).getV q = s.getV q := by
  obtain ⟨m, e, h⟩ := State.storeBytes_rest bs s a
  rw [h]; rfl

@[simp] theorem State.storeBytes_pc (bs : List Byte) (s : State) (a : Nat) : (s.storeBytes a bs).pc = s.pc := by
  obtain ⟨m, e, h⟩ := State.storeBytes_rest bs s a
  rw [h]

@[simp] theorem State.loadRegs_pc (rs : List Nibble) (s : State) (a : Nat) : (s.loadRegs a rs).pc = s.pc := by
  obtain ⟨v, e, h⟩ := State.loadRegs_rest rs s a
  rw [h]

@[simp] theorem State.storeBytes_stack (bs : List Byte) (s : State) (a : Nat) : (s.storeBytes a bs).stack = s.stack := by
  obtain ⟨m, e, h⟩ := State.storeBytes_rest bs s a
  rw [h]

@[simp] theorem State.storeBytes_depth (bs : List Byte) (s : State) (a : Nat) : (s.storeBytes a bs).depth = s.depth := by
  obtain ⟨m, e, h⟩ := State.storeBytes_rest bs s a
  rw [h]

@[simp] theorem State.loadRegs_stack (rs : List Nibble) (s : State) (a : Nat) : (s.loadRegs a rs).stack = s.stack := by
  obtain ⟨v, e, h⟩ := State.loadRegs_rest rs s a
  rw [h]

@[simp] theorem State.loadRegs_depth (rs : List Nibble) (s : State) (a : Nat) : (s.loadRegs a rs).depth = s.depth := by
  obtain ⟨v, e, h⟩ := State.loadRegs_rest rs s a
  rw [h]

theorem State.awaitKey_getV_of_ne {x q : Nibble} (h : q ≠ x) (s : State) (k : Option Nibble) :
    (s.awaitKey x k).getV q = s.getV q := by
  cases k with
  | none => rfl
  | some d => simp [State.awaitKey_some, h]

@[simp] theorem State.awaitKey_pc (s : State) (x : Nibble) (k : Option Nibble) : (s.awaitKey x k).pc = s.pc := by
  cases k <;> rfl

@[simp] theorem State.awaitKey_stack (s : State) (x : Nibble) (k : Option Nibble) : (s.awaitKey x k).stack = s.stack := by
  cases k <;> rfl

@[simp] theorem State.awaitKey_depth (s : State) (x : Nibble) (k : Option Nibble) : (s.awaitKey x k).depth = s.depth := by
  cases k <;> rfl

end Sys2Proof.Machine
end

section
/-! The stack operations (10_state.md R17), each with its effect on SP, on the cells and on everything else. -/

namespace Sys2Proof.Machine

variable {s t u : State}

/-- SP as the spec counts it, at its two ends. -/
theorem State.sp_eq_top_iff : s.sp = 15 ↔ ¬s.depth.val < 16 := by
  have := s.depth.isLt
  unfold State.sp; omega

theorem State.sp_eq_empty_iff : s.sp = -1 ↔ ¬0 < s.depth.val := by
  unfold State.sp; omega

/-- Writing the stack and its depth leaves every other part. -/
theorem State.withStack_frame (s : State) (st : Vector Word 16) (d : Fin 17) :
    Unchanged [.stack] s { s with stack := st, depth := d } := by
  refine ⟨fun p hp => ?_, rfl, rfl, rfl, rfl, rfl, rfl, rfl⟩
  cases p with
  | stack => simp at hp
  | mem => exact fun _ => rfl
  | fb => exact fun _ => rfl
  | _ => rfl

/-- A push with room: the new entry stands at the old depth, and the other cells keep theirs. -/
theorem State.push_spec (a : Word) (h : s.depth.val < 16) :
    ∃ t, s.push a = .ok t ∧ t.depth.val = s.depth.val + 1 ∧ t.stack[s.depth.val] = a ∧
      (∀ k (hk : k < 16), k ≠ s.depth.val → t.stack[k] = s.stack[k]) ∧ Unchanged [.stack] s t :=
  ⟨_, State.push_ok h, rfl, Vector.getElem_set_self h, fun _ hk hne => Vector.getElem_set_ne h hk hne.symm,
    s.withStack_frame _ _⟩

/-- A pop with `k` entries below the top: the top is returned, and no cell changes. -/
theorem State.pop_spec {k : Nat} (hk : k < 16) (h : s.depth.val = k + 1) :
    ∃ t, s.pop = .ok (s.stack[k], t) ∧ t.depth.val = k ∧ t.stack = s.stack ∧ Unchanged [.stack] s t := by
  have hpos : 0 < s.depth.val := by omega
  have hk' : k = s.depth.val - 1 := by omega
  subst hk'
  exact ⟨_, State.pop_ok hpos, rfl, rfl, s.withStack_frame _ _⟩

/-- Two pushes come back in reverse order, and leave the depth as it was. -/
theorem State.pop_pop_of_push_push (a b : Word) (h : s.depth.val < 15) :
    ∃ t u w r, s.push a = .ok t ∧ t.push b = .ok u ∧ u.pop = .ok (b, w) ∧ w.pop = .ok (a, r) ∧
      r.depth.val = s.depth.val := by
  obtain ⟨t, ht, htd, hta, -, -⟩ := State.push_spec (s := s) a (by omega)
  obtain ⟨u, hu, hud, hub, hkeep, -⟩ := State.push_spec (s := t) b (by omega)
  obtain ⟨w, hw, hwd, hws, -⟩ := State.pop_spec (s := u) (k := t.depth.val) (by omega) hud
  obtain ⟨r, hr, hrd, -, -⟩ := State.pop_spec (s := w) (k := s.depth.val) (by omega) (hwd.trans htd)
  have htop : w.stack[s.depth.val] = a := by
    simp only [hws, hkeep s.depth.val (by omega) (by omega), hta]
  rw [hub] at hw
  rw [htop] at hr
  exact ⟨t, u, w, r, ht, hu, hw, hr, hrd⟩

/-- Settles O24, from one rule for the push, one for the pop, and the two in a row. -/
theorem stackOperations : Obligations.StackOperations := by
  refine ⟨fun s a h => ?_, fun s a h => State.push_full (State.sp_eq_top_iff.mp h), fun s h => ?_,
    fun s h => State.pop_empty (State.sp_eq_empty_iff.mp h), fun s a b h => ?_⟩
  · obtain ⟨t, ht, hd, hcells⟩ := State.push_spec a h
    exact ⟨t, ht, by simp only [State.sp, hd]; omega, hcells⟩
  · obtain ⟨t, ht, hd, hcells⟩ := State.pop_spec (s := s) (k := s.depth.val - 1) (by omega) (by omega)
    exact ⟨t, ht, by simp only [State.sp, hd]; omega, hcells⟩
  · obtain ⟨t, u, w, r, ht, hu, hw, hr, hd⟩ :=
      State.pop_pop_of_push_push (s := s) a b (by unfold State.sp at h; omega)
    exact ⟨t, u, w, r, ht, hu, hw, hr, by simp only [State.sp, hd]⟩

end Sys2Proof.Machine
end

section
/-! PC after each instruction (10_state.md R14): the table `pcAfter` where the instruction completes, the fetch address plus 2
where it faults. -/

namespace Sys2Proof.Machine

variable {s t u : State}

/-- What R14 says of the state `t` that instruction `i`, fetched in `s`, leaves. -/
def LeavesPcByTable (i : Instr) (s t : State) : Prop :=
  (t.err = none → t.pc = pcAfter i s) ∧ (t.err ≠ none → t.pc = s.pc + 2)

/-- An instruction that completes leaves the PC of the table. -/
theorem LeavesPcByTable.of_completed {i : Instr} (he : t.err = none) (hp : t.pc = pcAfter i s) :
    LeavesPcByTable i s t :=
  ⟨fun _ => hp, fun h => absurd he h⟩

/-- One that faults leaves PC where the fetch put it. -/
theorem LeavesPcByTable.of_fault {i : Instr} (he : t.err ≠ none) (hp : t.pc = s.pc + 2) : LeavesPcByTable i s t :=
  ⟨fun h => absurd h he, fun _ => hp⟩

/-- One whose table entry is the next instruction leaves PC there, whether it completes or faults. -/
theorem LeavesPcByTable.of_next {i : Instr} (hi : pcAfter i s = s.pc + 2) (hp : t.pc = s.pc + 2) :
    LeavesPcByTable i s t :=
  ⟨fun _ => hp.trans hi.symm, fun _ => hp⟩

theorem pcAfter_call_of_room (nnn : Imm12) (h : s.depth.val < 16) : pcAfter (.call nnn) s = addrOperand nnn := if_pos h

theorem pcAfter_call_of_full (nnn : Imm12) (h : ¬s.depth.val < 16) : pcAfter (.call nnn) s = s.pc + 2 := if_neg h

theorem pcAfter_ret_of_pop {a : Word} (h : s.pop = .ok (a, u)) : pcAfter .ret s = a := by
  simp only [pcAfter, h]

theorem pcAfter_ret_of_empty (h : ¬0 < s.depth.val) : pcAfter .ret s = s.pc + 2 := by
  simp only [pcAfter, State.pop_empty h]

/-- A skip from PC past the fetch leaves the skip's target (41_control_flow.md R98). -/
theorem State.skipIf_pc_of_next (hp : u.pc = s.pc + 2) (c : Bool) : (u.skipIf c).pc = skipTarget s.pc c := by
  rw [State.skipIf_pc, hp]
  cases c with
  | false => rfl
  | true => exact BitVec.add_assoc s.pc 2 2

/-- A skip completes: it leaves the table's PC where its target is the table's. -/
theorem LeavesPcByTable.of_skip {i : Instr} {c : Bool} (he : u.err = none) (hp : u.pc = s.pc + 2)
    (hi : pcAfter i s = skipTarget s.pc c) : LeavesPcByTable i s (u.skipIf c) :=
  .of_completed ((u.skipIf_err c).trans he) ((State.skipIf_pc_of_next hp c).trans hi.symm)

/-- Every instruction has a next state, with PC as R14 says. -/
theorem exec_leavesPcByTable (i : Instr) (he : s.err = none) :
    ∃ t, exec i s.advance = .next t ∧ LeavesPcByTable i s t := by
  cases i with
  | jump nnn | jumpPlusV0 nnn => exact ⟨_, rfl, .of_completed he rfl⟩
  | call nnn =>
    by_cases hd : s.depth.val < 16
    · exact ⟨_, exec_call_of_push (State.push_ok (s := s.advance) hd),
        .of_completed he (pcAfter_call_of_room nnn hd).symm⟩
    · exact ⟨_, exec_call_of_full (s := s.advance) hd, .of_fault (by simp) rfl⟩
  | ret =>
    by_cases hd : 0 < s.depth.val
    · exact ⟨_, exec_ret_of_pop (State.pop_ok (s := s.advance) hd),
        .of_completed he (pcAfter_ret_of_pop (State.pop_ok hd)).symm⟩
    · exact ⟨_, exec_ret_of_empty (s := s.advance) hd, .of_fault (by simp) rfl⟩
  | skipEqImm x kk | skipNeImm x kk | skipEqReg x y z | skipNeReg x y z | skipIfPressed x
  | skipIfNotPressed x => exact ⟨_, rfl, .of_skip he rfl rfl⟩
  | drawSprite x y n =>
    obtain ⟨f, c, h⟩ | h := exec_drawSprite_cases x y n s.advance
    · exact ⟨_, h, .of_next rfl rfl⟩
    · exact ⟨_, h, .of_next rfl rfl⟩
  | waitKey x => exact ⟨_, rfl, .of_next rfl (State.awaitKey_pc ..)⟩
  | storeBCD x | regDump x => exact ⟨_, rfl, .of_next rfl (State.storeBytes_pc ..)⟩
  | regLoad x => exact ⟨_, rfl, .of_next rfl (State.loadRegs_pc ..)⟩
  | _ => exact ⟨_, rfl, .of_next rfl rfl⟩

/-- A Step that fetches an instruction executes it, PC advanced. -/
theorem coreStep_of_instr {i : Instr} (hf : s.fetches) (hi : decode s.wordAtPc = .instr i) :
    coreStep s = exec i s.advance := by
  rw [coreStep_of_fetches hf, runWord_of_instr hi]

/-- Settles O10: the table, the address Call pushes, and the fetch that faults. -/
theorem pcAfterEachInstruction : Obligations.PcAfterEachInstruction := by
  refine ⟨fun s i hf hi => ?_, fun s nnn h hf hi => ?_, fun s he hw hp => ?_⟩
  · rw [coreStep_of_instr hf hi]
    exact exec_leavesPcByTable i hf.1
  · rw [coreStep_of_instr hf hi]
    obtain ⟨t, ht, -, htop, -, hframe⟩ := State.push_spec (s := s.advance) s.advance.pc h
    have herr : t.err = s.err := hframe.1 .err (by simp)
    exact ⟨_, exec_call_of_push ht, herr.trans hf.1, htop⟩
  · exact ⟨_, coreStep_of_fetch_fault he hw hp, rfl⟩

end Sys2Proof.Machine
end

section
/-! The bound on PC and on the return addresses (10_state.md R13, 41_control_flow.md R92): PC by the table of R14, the stack by
what Call pushes. -/

namespace Sys2Proof.Machine

variable {s t u : State}

/-- The half of `pcBounded` that speaks of the stack: every return address is at most 0x1000. -/
def State.returnsBounded (s : State) : Prop := ∀ k (h : k < 16), k < s.depth.val → (s.stack[k]'h).toNat ≤ 0x1000

theorem State.pcBounded_iff : s.pcBounded ↔ s.pc.toNat ≤ 0x10FE ∧ s.returnsBounded := Iff.rfl

/-! ### The return addresses -/

theorem State.returnsBounded.of_same (h : s.returnsBounded) (hst : Part.stack.same s t) : t.returnsBounded := by
  obtain ⟨hd, hs⟩ := hst
  unfold State.returnsBounded
  rw [hd, hs]
  exact h

/-- A push of a bounded address keeps the bound. -/
theorem State.returnsBounded.push {a : Word} (h : s.returnsBounded) (ha : a.toNat ≤ 0x1000) (hp : s.push a = .ok t) :
    t.returnsBounded := by
  by_cases hd : s.depth.val < 16
  · obtain ⟨t', ht', htd, htop, hkeep, -⟩ := State.push_spec a hd
    obtain rfl : t' = t := by rw [hp] at ht'; cases ht'; rfl
    intro k hk hlt
    by_cases hkd : k = s.depth.val
    · subst hkd; rw [htop]; exact ha
    · rw [hkeep k hk hkd]; exact h k hk (by omega)
  · rw [State.push_full hd] at hp; cases hp

/-- A pop keeps the bound, and its address meets it. -/
theorem State.returnsBounded.pop {a : Word} (h : s.returnsBounded) (hp : s.pop = .ok (a, t)) :
    t.returnsBounded ∧ a.toNat ≤ 0x1000 := by
  by_cases hd : 0 < s.depth.val
  · have hlt := s.depth.isLt
    rw [State.pop_ok hd] at hp; cases hp
    exact ⟨fun k hk hkd => h k hk (Nat.lt_of_lt_of_le hkd (Nat.sub_le _ 1)), h _ (by omega) (by omega)⟩
  · rw [State.pop_empty hd] at hp; cases hp

/-- What an instruction does to the stack: nothing, Call's push of PC, or Return's pop. -/
theorem exec_stack_cases {i : Instr} (h : exec i s = .next t) :
    Part.stack.same s t ∨ (∃ u, s.push s.pc = .ok u ∧ Part.stack.same u t) ∨
      (∃ a u, s.pop = .ok (a, u) ∧ Part.stack.same u t) := by
  rcases exec_cases h with ⟨_, -, ⟨-, u, hu, rfl⟩ | ⟨-, rfl⟩⟩ | ⟨-, ⟨-, a, u, hu, rfl⟩ | ⟨-, rfl⟩⟩ | hother
  · exact .inr (.inl ⟨u, hu, rfl, rfl⟩)
  · exact .inl ⟨rfl, rfl⟩
  · exact .inr (.inr ⟨a, u, hu, rfl, rfl⟩)
  · exact .inl ⟨rfl, rfl⟩
  · left
    rcases hother with ⟨-, rfl⟩ | ⟨_, _, _, -, ⟨_, _, rfl⟩ | rfl⟩ | ⟨_, -, _, rfl⟩ | ⟨_, -, rfl⟩ | ⟨_, -, rfl⟩ |
      ⟨_, -, rfl⟩ | ⟨_, -, rfl⟩ | ⟨_, -, rfl⟩ | ⟨_, _, -, rfl⟩ | ⟨-, _, rfl⟩ | ⟨-, _, rfl⟩ |
      (⟨_, -, rfl⟩ | ⟨_, -, rfl⟩) | ⟨-, _, _, rfl⟩ | ⟨-, _, _, _, rfl⟩
    all_goals exact ⟨by simp, by simp⟩

/-- An instruction run with PC at most 0x1000 keeps the bound on the return addresses. -/
theorem exec_keeps_returnsBounded {i : Instr} (h : exec i s = .next t) (hs : s.returnsBounded)
    (hp : s.pc.toNat ≤ 0x1000) : t.returnsBounded := by
  obtain hst | ⟨u, hu, hst⟩ | ⟨a, u, hu, hst⟩ := exec_stack_cases h
  · exact hs.of_same hst
  · exact (hs.push hp hu).of_same hst
  · exact (hs.pop hu).1.of_same hst

/-! ### PC -/

/-- The fetch leaves PC at most 0x1000. -/
theorem next_pc_le {a : Word} (h : a.toNat ≤ 4094) : (a + 2).toNat ≤ 0x1000 := by
  bv_omega

theorem skipTarget_le {a : Word} (h : a.toNat ≤ 4094) (c : Bool) : (skipTarget a c).toNat ≤ 0x1002 := by
  cases c with
  | false => exact (next_pc_le h).trans (by decide)
  | true => show (a + 4).toNat ≤ 0x1002; bv_omega

theorem addrOperand_le (nnn : Imm12) : (addrOperand nnn).toNat ≤ 0xFFF := by
  rw [addrOperand_toNat]
  exact Nat.le_of_lt_succ nnn.isLt

/-- The largest target of JumpPlusV0 (41_control_flow.md R93). -/
theorem addrOperand_add_wideByte_le (nnn : Imm12) (b : Byte) : (addrOperand nnn + wideByte b).toNat ≤ 0x10FE := by
  have hn := addrOperand_le nnn
  have hb : (wideByte b).toNat ≤ 0xFF := by rw [wideByte_toNat]; exact Nat.le_of_lt_succ b.isLt
  rw [BitVec.toNat_add_of_lt (by omega)]
  omega

/-- Every entry of the table of R14 is at most 0x10FE. -/
theorem pcAfter_le (i : Instr) (hp : s.pc.toNat ≤ 4094) (hs : s.returnsBounded) : (pcAfter i s).toNat ≤ 0x10FE := by
  have hnext : (s.pc + 2).toNat ≤ 0x10FE := (next_pc_le hp).trans (by decide)
  have hskip (c : Bool) : (skipTarget s.pc c).toNat ≤ 0x10FE := (skipTarget_le hp c).trans (by decide)
  have haddr (nnn : Imm12) : (addrOperand nnn).toNat ≤ 0x10FE := (addrOperand_le nnn).trans (by decide)
  cases i with
  | jump nnn => exact haddr nnn
  | jumpPlusV0 nnn => exact addrOperand_add_wideByte_le nnn _
  | call nnn =>
    by_cases hd : s.depth.val < 16
    · rw [pcAfter_call_of_room nnn hd]; exact haddr nnn
    · rw [pcAfter_call_of_full nnn hd]; exact hnext
  | ret =>
    by_cases hd : 0 < s.depth.val
    · rw [pcAfter_ret_of_pop (State.pop_ok hd)]
      exact (hs.pop (State.pop_ok hd)).2.trans (by decide)
    · rw [pcAfter_ret_of_empty hd]; exact hnext
  | skipEqImm x kk | skipNeImm x kk | skipEqReg x y z | skipNeReg x y z | skipIfPressed x
  | skipIfNotPressed x => exact hskip _
  | _ => exact hnext

/-! ### Every event -/

/-- An instruction that a Step fetches keeps the invariant. -/
theorem exec_keeps_pcBounded {i : Instr} (h : exec i s.advance = .next t) (hf : s.fetches) (hs : s.pcBounded) :
    t.pcBounded := by
  obtain ⟨he, -, hp⟩ := hf
  obtain ⟨-, hret⟩ := State.pcBounded_iff.mp hs
  obtain ⟨t', ht', hok, hfault⟩ := exec_leavesPcByTable i he
  obtain rfl : t' = t := by rw [h] at ht'; cases ht'; rfl
  refine State.pcBounded_iff.mpr ⟨?_, exec_keeps_returnsBounded h (hret.of_same ⟨rfl, rfl⟩) (next_pc_le hp)⟩
  by_cases hte : t'.err = none
  · rw [hok hte]; exact pcAfter_le i hp hret
  · rw [hfault hte]; exact (next_pc_le hp).trans (by decide)

/-- What changes neither PC nor the stack keeps the invariant. -/
theorem State.pcBounded.of_same (h : s.pcBounded) (hp : t.pc = s.pc) (hst : Part.stack.same s t) : t.pcBounded :=
  State.pcBounded_iff.mpr ⟨by rw [hp]; exact h.1, State.returnsBounded.of_same h.2 hst⟩

theorem coreStep_keeps_pcBounded (hs : s.pcBounded) (h : coreStep s = .next t) : t.pcBounded := by
  obtain ⟨-, rfl⟩ | ⟨-, w, -, rfl⟩ | ⟨-, -, -, rfl⟩ | ⟨⟨-, -, hp⟩, -, rfl⟩ | ⟨hf, i, -, hi⟩ := coreStep_cases h
  · exact hs
  · exact hs.of_same (by simp) ⟨by simp, by simp⟩
  · exact hs.of_same rfl ⟨rfl, rfl⟩
  · exact State.pcBounded_iff.mpr ⟨(next_pc_le hp).trans (by decide), hs.2⟩
  · exact exec_keeps_pcBounded hi hf hs

/-- After a Reset PC is 0x200 and the stack is empty. -/
theorem State.resetEvent_pcBounded (s : State) : s.resetEvent.pcBounded :=
  State.pcBounded_iff.mpr ⟨by rw [State.resetEvent_pc]; decide, fun k _ hk => absurd hk (Nat.not_lt_zero k)⟩

/-- A Load leaves PC and the stack, whatever it returns. -/
theorem State.loadEvent_keeps_pcBounded (hs : s.pcBounded) (bytes : List Byte) : (s.loadEvent bytes).pcBounded := by
  unfold State.loadEvent
  split
  · exact hs.of_same rfl ⟨rfl, rfl⟩
  · exact hs.of_same rfl ⟨rfl, rfl⟩

/-- Settles O52, event by event: a Step by the table of R14 and the stack's rules, a Reset by its values, and the others
leave PC and the stack. -/
theorem stepKeepsPcBounded : Obligations.StepKeepsPcBounded := by
  intro s t hs h
  have hpop : s.popEvent.pcBounded := hs.of_same rfl ⟨rfl, rfl⟩
  obtain ⟨-, u, hu, rfl⟩ | ⟨-, rfl⟩ | ⟨-, rfl⟩ | ⟨bytes, -, -, rfl⟩ | ⟨e, -, rfl⟩ := step_cases h
  · have hclosed : s.popEvent.closeLoad.pcBounded := hpop.of_same rfl ⟨rfl, rfl⟩
    exact (coreStep_keeps_pcBounded hclosed hu).of_same rfl ⟨rfl, rfl⟩
  · exact hpop.of_same rfl ⟨rfl, rfl⟩
  · exact State.resetEvent_pcBounded _
  · exact State.loadEvent_keeps_pcBounded hpop bytes
  · exact hpop.of_same rfl ⟨rfl, rfl⟩

end Sys2Proof.Machine
end

section
/-! VF as a flag (10_state.md R11): the registers each instruction can write, and what the flag writers leave in VF. -/

namespace Sys2Proof.Machine

variable {s t : State}

/-- The registers an instruction can write: its destination, VF for the flag writers, those RegLoad counts. -/
def writtenRegs : Instr → List Nibble
  | .loadImm x _ | .addImm x _ | .copy x _ | .or x _ | .and x _ | .xor x _ | .randMaskImm x _ | .readDelay x
  | .waitKey x => [x]
  | .add x _ | .sub x _ | .subReverse x _ | .shiftRight x _ | .shiftLeft x _ => [x, vf]
  | .drawSprite _ _ _ => [vf]
  | .regLoad x => firstRegs x
  | _ => []

/-- No other register changes. -/
theorem exec_getV_of_not_written {i : Instr} {q : Nibble} (h : exec i s = .next t) (hq : q ∉ writtenRegs i) :
    t.getV q = s.getV q := by
  have setV_keeps {u : State} {x : Nibble} {b : Byte} (hx : q ∉ [x]) : (u.setV x b).getV q = u.getV q :=
    u.getV_setV_of_ne (by simpa using hx) b
  have writeFlagged_keeps {x : Nibble} {f b : Byte} (hx : q ∉ [x, vf]) : (s.writeFlagged x f b).getV q = s.getV q := by
    simp only [List.mem_cons, List.not_mem_nil, or_false, not_or] at hx
    rw [State.getV_writeFlagged, if_neg hx.1, if_neg hx.2]
  cases i with
  | loadImm x kk | addImm x kk | copy x y | or x y | and x y | xor x y | readDelay x
  | randMaskImm x kk => cases h; exact setV_keeps hq
  | waitKey x => cases h; exact State.awaitKey_getV_of_ne (by simpa [writtenRegs] using hq) _ _
  | add x y | sub x y | subReverse x y | shiftRight x y | shiftLeft x y => cases h; exact writeFlagged_keeps hq
  | drawSprite x y n =>
    obtain ⟨f, c, hd⟩ | hd := exec_drawSprite_cases x y n s
    · rw [hd] at h; cases h; exact setV_keeps hq
    · rw [hd] at h; cases h; rfl
  | regLoad x => cases h; exact State.loadRegs_getV_of_not_mem hq
  | storeBCD x | regDump x => cases h; exact State.storeBytes_getV ..
  | call nnn =>
    by_cases hd : s.depth.val < 16
    · rw [exec_call_of_push (State.push_ok hd)] at h; cases h; rfl
    · rw [exec_call_of_full hd] at h; cases h; rfl
  | ret =>
    by_cases hd : 0 < s.depth.val
    · rw [exec_ret_of_pop (State.pop_ok hd)] at h; cases h; rfl
    · rw [exec_ret_of_empty hd] at h; cases h; rfl
  | skipEqImm x kk | skipNeImm x kk | skipEqReg x y z | skipNeReg x y z | skipIfPressed x
  | skipIfNotPressed x => cases h; exact State.skipIf_getV ..
  | _ => cases h; rfl

/-- RegLoad's count never reaches VF (43_index_memory.md R125). -/
theorem vf_not_mem_firstRegs (x : Nibble) : vf ∉ firstRegs x := by
  have := x.isLt
  rw [mem_firstRegs]
  show ¬15 < x.toNat
  omega

/-- With another destination than VF, a flagged write leaves the flag there. -/
theorem State.writeFlagged_getV_vf {x : Nibble} (hx : x ≠ vf) (s : State) (c : Bool) (b : Byte) :
    (s.writeFlagged x (flagByte c) b).getV vf = 0 ∨ (s.writeFlagged x (flagByte c) b).getV vf = 1 := by
  rw [State.getV_writeFlagged, if_neg hx.symm, if_pos rfl]
  exact flagByte_cases c

/-- A DrawSprite that does not fault leaves 0 or 1 in VF. -/
theorem exec_drawSprite_getV_vf {x y n : Nibble} (h : exec (.drawSprite x y n) s = .next t) (ht : t.err = none) :
    t.getV vf = 0 ∨ t.getV vf = 1 := by
  obtain ⟨f, c, hd⟩ | hd := exec_drawSprite_cases x y n s
  · rw [hd] at h; cases h
    rw [State.repaint_getV, State.getV_setV_same]
    exact flagByte_cases c
  · rw [hd] at h; cases h; cases ht

/-- Settles O50: the first list writes no VF, the arithmetic writers and DrawSprite leave a flag. -/
theorem flagWriters : Obligations.FlagWriters := by
  intro s t x y n kk nnn hx
  refine ⟨fun i hi h => exec_getV_of_not_written h ?_, fun i hi h => ?_, fun h hsame he => ?_⟩
  · revert i
    simp [writtenRegs, hx.symm, vf_not_mem_firstRegs]
  · simp only [List.mem_cons, List.not_mem_nil, or_false] at hi
    obtain rfl | rfl | rfl | rfl | rfl := hi
    all_goals cases h; exact State.writeFlagged_getV_vf hx ..
  · exact exec_drawSprite_getV_vf h (hsame.trans he)

end Sys2Proof.Machine
end

section
/-! Memory as the program sees it (20_memory.md): what a word read is, what a byte or a run of bytes written reads as
afterwards, and the fetch of an instruction just stored. -/

namespace Sys2Proof.Machine

variable {s t : State}

/-! ### A word read (R42, R44) -/

theorem wordOfBytes_toNat (hi lo : Byte) : (wordOfBytes hi lo).toNat = 256 * hi.toNat + lo.toNat := by
  rw [wordOfBytes, BitVec.toNat_append, ← Nat.shiftLeft_add_eq_or_of_lt lo.isLt, Nat.shiftLeft_eq, Nat.mul_comm]

theorem State.memReadWord_some {a : Nat} (h : a + 1 < Config.memSize) :
    s.memReadWord a = some (wordOfBytes (s.byteAt a) (s.byteAt (a + 1))) := if_pos h

theorem State.memReadWord_none {a : Nat} (h : ¬a + 1 < Config.memSize) : s.memReadWord a = none := if_neg h

/-- Settles O46: in range the word is the two bytes, the first the high one, and out of range there is none. -/
theorem memReadWordBigEndian : Obligations.MemReadWordBigEndian := by
  refine fun s a => ⟨fun h => ⟨_, State.memReadWord_some ?_, wordOfBytes_toNat _ _⟩,
    fun h => State.memReadWord_none ?_⟩
  all_goals rw [memSize_eq]; omega

/-! ### A byte written (R43, R46) -/

/-- Writing memory leaves every other part. -/
theorem State.withMem_frame (s : State) (m : Memory) : Unchanged [.mem] s { s with mem := m } := by
  refine ⟨fun p hp => ?_, rfl, rfl, rfl, rfl, rfl, rfl, rfl⟩
  cases p with
  | mem => simp at hp
  | fb => exact fun _ => rfl
  | stack => exact ⟨rfl, rfl⟩
  | _ => rfl

/-- A read after a write: the byte written at its address, what was there at any other. -/
theorem State.memRead_withMem_write (hs : s.memWf) {a : Nat} (ha : a < Config.memSize) (b : Byte) (c : Nat) :
    State.memRead { s with mem := s.mem.write a b } c = if c = a then some b else s.memRead c := by
  simp only [State.memRead, State.byteAt, Memory.read_write hs]
  by_cases hc : c = a
  · subst hc; simp only [if_true, if_pos ha]
  · simp only [if_neg hc]

/-- Settles O47: in range by the read after a write and the frame of a write, out of range by the range check. -/
theorem memWriteThenRead : Obligations.MemWriteThenRead := by
  intro s a b hs
  constructor
  · intro h
    have ha : a < Config.memSize := Nat.lt_succ_of_le h
    refine ⟨_, State.memWrite_some ha b, ?_, fun c hc => ?_, s.withMem_frame _⟩
    · rw [State.memRead_withMem_write hs ha, if_pos rfl]
    · rw [State.memRead_withMem_write hs ha, if_neg hc]
  · intro h
    have ha : ¬a < Config.memSize := Nat.not_lt_of_ge h
    exact ⟨State.memWrite_none ha b, State.memRead_none ha⟩

/-! ### Bytes stored (R43, R53) -/

/-- Of bytes stored in range, the k-th stands k addresses after the first. -/
theorem State.storeBytes_byteAt (hs : s.memWf) {a k : Nat} {bs : List Byte} (h : a + bs.length ≤ Config.memSize)
    (hk : k < bs.length) : (s.storeBytes a bs).byteAt (a + k) = bs[k] := by
  have hin : a ≤ a + k ∧ a + k - a < bs.length := by omega
  rw [State.storeBytes_fits h, State.byteAt, Memory.read_writeAll hs h, dif_pos hin]
  simp only [Nat.add_sub_cancel_left]

theorem State.firstValues_two (s : State) : s.firstValues 2 = [s.getV 0, s.getV 1] := rfl

/-- Settles O48: the fetch reads the word at PC, whose two bytes are the two just stored. -/
theorem storedInstructionIsFetched : Obligations.StoredInstructionIsFetched := by
  intro s t hs hi hp h
  obtain rfl : s.storeBytes s.pc.toNat [s.getV 0, s.getV 1] = t := by
    rw [← s.firstValues_two, ← hi]; cases h; rfl
  have hfits : s.pc.toNat + [s.getV 0, s.getV 1].length ≤ Config.memSize := by
    simp only [memSize_eq, List.length_cons, List.length_nil]; omega
  rw [State.fetch_some (by rw [State.storeBytes_pc]; exact hp), State.wordAtPc, State.storeBytes_pc]
  have hhi := State.storeBytes_byteAt hs hfits (k := 0) (by simp)
  have hlo := State.storeBytes_byteAt hs hfits (k := 1) (by simp)
  rw [Nat.add_zero] at hhi
  rw [hhi, hlo]
  rfl

end Sys2Proof.Machine
end

section
/-! Which instructions write memory, the stack, the framebuffer, I, the timers and WAIT (20_memory.md R55, 10_state.md R12 to
R22), and the canonical form of memory that follows from how they write it (20_memory.md R40, R46). -/

namespace Sys2Proof.Machine

variable {s t : State}

/-! ### What an instruction writes besides registers -/

/-- The two states hold the same data in every part R55 and 10_state.md name the writers of. -/
def SameStorage (s t : State) : Prop :=
  t.mem = s.mem ∧ (t.depth = s.depth ∧ t.stack = s.stack) ∧ t.fb = s.fb ∧ t.i = s.i ∧ t.dt = s.dt ∧ t.st = s.st ∧
    t.wait = s.wait

theorem SameStorage.refl (s : State) : SameStorage s s := ⟨rfl, ⟨rfl, rfl⟩, rfl, rfl, rfl, rfl, rfl⟩

/-- What instruction `i` may do to storage from state `s`: nothing, or write the one part that it is a writer of. -/
inductive WritesStorage (i : Instr) (s t : State) : Prop
  | nothing (h : SameStorage s t)
  | memory (hi : i.mnemonic ∈ ["StoreBCD", "RegDump"]) (a : Nat) (bs : List Byte) (h : t = s.storeBytes a bs)
  | stack (hi : i.mnemonic ∈ ["Call", "Return"]) (c : Vector Word 16) (d : Fin 17)
      (h : SameStorage { s with stack := c, depth := d } t)
  | framebuffer (hi : i.mnemonic ∈ ["ClearScreen", "DrawSprite"]) (f : BitVec 2048) (h : SameStorage (s.setFb f) t)
  | index (hi : i.mnemonic ∈ ["LoadIndex", "AddIndex", "LoadDigitSprite"]) (a : Word) (h : SameStorage (s.setI a) t)
  | delay (hi : i.mnemonic = "SetDelay") (b : Byte) (h : SameStorage (s.setDt b) t)
  | sound (hi : i.mnemonic = "SetSound") (b : Byte) (h : SameStorage (s.setSt b) t)
  | wait (hi : i.mnemonic = "WaitKey") (w : Option Nibble) (h : SameStorage (s.setWait w) t)

theorem State.skipIf_sameStorage (s : State) (c : Bool) : SameStorage s (s.skipIf c) := by
  rw [State.skipIf_eq]; exact .refl s

theorem State.loadRegs_sameStorage (s : State) (a : Nat) (rs : List Nibble) : SameStorage s (s.loadRegs a rs) := by
  obtain ⟨v, e, h⟩ := State.loadRegs_rest rs s a
  rw [h]; exact .refl s

theorem State.storeBytes_sameStorage (s : State) (a : Nat) (bs : List Byte) :
    ∃ m, SameStorage { s with mem := m } (s.storeBytes a bs) := by
  obtain ⟨m, e, h⟩ := State.storeBytes_rest bs s a
  rw [h]; exact ⟨m, .refl _⟩

/-- A sampled KEY reaches WAIT alone, besides a register (45_keypad_timers.md R142). -/
theorem State.awaitKey_sameStorage (s : State) (x : Nibble) (k : Option Nibble) :
    ∃ w, SameStorage (s.setWait w) (s.awaitKey x k) := by
  cases k with
  | none => exact ⟨some x, .refl _⟩
  | some d => exact ⟨none, .refl _⟩

/-- Every instruction writes one part of storage at most, and then it is one of that part's writers. -/
theorem exec_writesStorage {i : Instr} (h : exec i s = .next t) : WritesStorage i s t := by
  cases i with
  | storeBCD x | regDump x => cases h; exact .memory (by simp [Instr.mnemonic]) _ _ rfl
  | call nnn =>
    by_cases hd : s.depth.val < 16
    · rw [exec_call_of_push (State.push_ok hd)] at h; cases h
      exact .stack (by simp [Instr.mnemonic]) _ _ (.refl _)
    · rw [exec_call_of_full hd] at h; cases h; exact .nothing (.refl s)
  | ret =>
    by_cases hd : 0 < s.depth.val
    · rw [exec_ret_of_pop (State.pop_ok hd)] at h; cases h
      exact .stack (by simp [Instr.mnemonic]) _ _ (.refl _)
    · rw [exec_ret_of_empty hd] at h; cases h; exact .nothing (.refl s)
  | clearScreen => cases h; exact .framebuffer (by simp [Instr.mnemonic]) 0 (.refl _)
  | drawSprite x y n =>
    obtain ⟨f, c, hd⟩ | hd := exec_drawSprite_cases x y n s
    · rw [hd] at h; cases h; exact .framebuffer (by simp [Instr.mnemonic]) f (.refl _)
    · rw [hd] at h; cases h; exact .nothing (.refl s)
  | loadIndex nnn | addIndex x | loadDigitSprite x => cases h; exact .index (by simp [Instr.mnemonic]) _ (.refl _)
  | setDelay x => cases h; exact .delay rfl _ (.refl _)
  | setSound x => cases h; exact .sound rfl _ (.refl _)
  | waitKey x =>
    cases h
    obtain ⟨w, hw⟩ := s.drawn.awaitKey_sameStorage x s.keyNow
    exact .wait rfl w hw
  | regLoad x => cases h; exact .nothing (s.loadRegs_sameStorage _ _)
  | skipEqImm x kk | skipNeImm x kk | skipEqReg x y z | skipNeReg x y z => cases h; exact .nothing (s.skipIf_sameStorage _)
  | skipIfPressed x | skipIfNotPressed x => cases h; exact .nothing (s.drawn.skipIf_sameStorage _)
  | _ => cases h; exact .nothing (.refl s)

/-- Settles O49: the one part that an instruction writes has it among its writers, and the other parts are the same data. -/
theorem whoWritesWhat : Obligations.WhoWritesWhat := by
  intro i s t h
  cases exec_writesStorage h with
  | nothing h =>
    obtain ⟨hmem, hstack, hfb, hi, hdt, hst, hwait⟩ := h
    exact ⟨absurd hmem, absurd hstack, absurd hfb, absurd hi, absurd hdt, absurd hst, absurd hwait⟩
  | memory hw a bs ht =>
    obtain ⟨m, -, hstack, hfb, hi, hdt, hst, hwait⟩ := s.storeBytes_sameStorage a bs
    rw [ht]
    exact ⟨fun _ => hw, absurd hstack, absurd hfb, absurd hi, absurd hdt, absurd hst, absurd hwait⟩
  | stack hw _ _ h | framebuffer hw _ h | index hw _ h | delay hw _ h | sound hw _ h | wait hw _ h =>
    obtain ⟨hmem, ⟨hdepth, hcells⟩, hfb, hi, hdt, hst, hwait⟩ := h
    simp [hmem, hdepth, hcells, hfb, hi, hdt, hst, hwait, hw]

/-! ### The canonical form of memory (R40, R46) -/

theorem State.memWf.of_same (hs : s.memWf) (h : t.mem = s.mem) : t.memWf := by
  unfold State.memWf
  rw [h]
  exact hs

/-- An instruction keeps memory, or writes it by stores, which keep the canonical form. -/
theorem exec_keeps_memWf {i : Instr} (h : exec i s = .next t) (hs : s.memWf) : t.memWf := by
  cases exec_writesStorage h with
  | memory _ a bs ht => rw [ht]; exact State.storeBytes_wf hs
  | nothing h | stack _ _ _ h | framebuffer _ _ h | index _ _ h | delay _ _ h | sound _ _ h
  | wait _ _ h => exact hs.of_same h.1

theorem coreStep_keeps_memWf (h : coreStep s = .next t) (hs : s.memWf) : t.memWf := by
  obtain ⟨-, rfl⟩ | ⟨-, w, -, rfl⟩ | ⟨-, -, -, rfl⟩ | ⟨-, -, rfl⟩ | ⟨-, i, -, hi⟩ := coreStep_cases h
  · exact hs
  · obtain ⟨w', hmem, -⟩ := s.drawn.awaitKey_sameStorage w s.keyNow
    exact hs.of_same hmem
  · exact hs
  · exact hs
  · exact exec_keeps_memWf hi hs

/-- A program that Load accepts fits in memory; one that it rejects writes nothing (70_reset_and_hazards.md R185). -/
theorem State.loadEvent_keeps_memWf (hs : s.memWf) (bytes : List Byte) : (s.loadEvent bytes).memWf := by
  unfold State.loadEvent
  split
  case isTrue hlen =>
    have hfits : Config.progBase + bytes.length ≤ Config.memSize := by
      unfold Config.maxRom at hlen
      unfold Config.progBase Config.memSize
      omega
    exact Memory.writeAll_wf hs hfits
  case isFalse => exact hs

/-- Settles O51, event by event: a Step and a Load write in range, a Reset seeds a canonical memory, and the other events
leave memory. -/
theorem stepKeepsMemoryCanonical : Obligations.StepKeepsMemoryCanonical := by
  intro s t hs h
  have hpop : s.popEvent.memWf := hs
  obtain ⟨-, u, hu, rfl⟩ | ⟨-, rfl⟩ | ⟨-, rfl⟩ | ⟨bytes, -, -, rfl⟩ | ⟨e, -, rfl⟩ := step_cases h
  · have hstep : u.memWf := coreStep_keeps_memWf hu hpop
    exact hstep
  · exact hpop
  · exact Memory.seeded_wf s.popEvent.env.font
  · exact State.loadEvent_keeps_memWf hpop bytes
  · exact hpop

end Sys2Proof.Machine
end

section
/-! The decoder and the encoder are each other's inverse: every instruction is read back from its word, and every
supported word is written back from its instruction (30_encoding.md R61, R62, R67). -/

namespace Sys2Proof

/-! ### Decode of encode -/

/-- Settles O2, constructor by constructor: the fields of the word written are the operands, and the high nibble, with the
low nibble or low byte under 0x8, 0xE and 0xF, selects the kind. -/
theorem decodeEncodeAgree : Obligations.DecodeEncodeAgree := by
  intro i
  cases i with
  | clearScreen | ret => decide
  | jump nnn => simp [encode, decode_op1]
  | call nnn => simp [encode, decode_op2]
  | skipEqImm x kk => simp [encode, decode_op3]
  | skipNeImm x kk => simp [encode, decode_op4]
  | skipEqReg x y z => simp [encode, decode_op5]
  | loadImm x kk => simp [encode, decode_op6]
  | addImm x kk => simp [encode, decode_op7]
  | skipNeReg x y z => simp [encode, decode_op9]
  | loadIndex nnn => simp [encode, decode_opA]
  | jumpPlusV0 nnn => simp [encode, decode_opB]
  | randMaskImm x kk => simp [encode, decode_opC]
  | drawSprite x y n => simp [encode, decode_opD]
  | copy x y | or x y | and x y | xor x y | add x y | sub x y | shiftRight x y | subReverse x y | shiftLeft x y =>
    simp [encode, decode_op8, decode8]
  | skipIfPressed x | skipIfNotPressed x => simp [encode, decode_opE, decodeE]
  | readDelay x | waitKey x | setDelay x | setSound x | addIndex x | loadDigitSprite x | storeBCD x | regDump x
  | regLoad x => simp [encode, decode_opF, decodeF]

/-! ### Encode of decode -/

section
variable {w : Word} {i : Instr}

/-- A word of high nibble `op` is the word of format NNN with that nibble and its own address field. -/
theorem wordNNN_of_op {op : Nibble} (h : fieldOp w = op) : wordNNN op (fieldNNN w) = w := h ▸ wordNNN_fields w

theorem wordXKK_of_op {op : Nibble} (h : fieldOp w = op) : wordXKK op (fieldX w) (fieldKK w) = w :=
  h ▸ wordXKK_fields w

theorem wordXYN_of_op {op : Nibble} (h : fieldOp w = op) : wordXYN op (fieldX w) (fieldY w) (fieldN w) = w :=
  h ▸ wordXYN_fields w

/-- Under 0x8 the instruction keeps both registers, and its kind the low nibble. -/
theorem encode_of_decode8 (h : fieldOp w = 0x8) (hi : decode8 w = .instr i) : encode i = w := by
  rw [← wordXYN_of_op h]
  simp only [decode8] at hi
  split_ifs at hi with hn hn hn hn hn hn hn hn hn <;> cases hi <;> simp [encode, hn]

/-- Under 0xE the instruction keeps the register, and its kind the low byte. -/
theorem encode_of_decodeE (h : fieldOp w = 0xE) (hi : decodeE w = .instr i) : encode i = w := by
  rw [← wordXKK_of_op h]
  simp only [decodeE] at hi
  split_ifs at hi with hk hk <;> cases hi <;> simp [encode, hk]

/-- Under 0xF the instruction keeps the register, and its kind the low byte. -/
theorem encode_of_decodeF (h : fieldOp w = 0xF) (hi : decodeF w = .instr i) : encode i = w := by
  rw [← wordXKK_of_op h]
  simp only [decodeF] at hi
  split_ifs at hi with hk hk hk hk hk hk hk hk hk <;> cases hi <;> simp [encode, hk]

/-- With high nibble 0 only the two exact matches are instructions. -/
theorem encode_of_decode_op0 (h : fieldOp w = 0x0) (hi : decode w = .instr i) : encode i = w := by
  rw [decode_op0 h] at hi
  split_ifs at hi with hw hw <;> cases hi <;> exact hw.symm

end

/-- Settles O3, by the high nibble of the word: the instruction keeps every field that its kind does not fix. -/
theorem encodeOfDecodedWord : Obligations.EncodeOfDecodedWord := by
  intro w i hi
  obtain h | h | h | h | h | h | h | h | h | h | h | h | h | h | h | h := fieldOp_cases w
  · exact encode_of_decode_op0 h hi
  · cases (decode_op1 h).symm.trans hi; exact wordNNN_of_op h
  · cases (decode_op2 h).symm.trans hi; exact wordNNN_of_op h
  · cases (decode_op3 h).symm.trans hi; exact wordXKK_of_op h
  · cases (decode_op4 h).symm.trans hi; exact wordXKK_of_op h
  · cases (decode_op5 h).symm.trans hi; exact wordXYN_of_op h
  · cases (decode_op6 h).symm.trans hi; exact wordXKK_of_op h
  · cases (decode_op7 h).symm.trans hi; exact wordXKK_of_op h
  · exact encode_of_decode8 h ((decode_op8 h).symm.trans hi)
  · cases (decode_op9 h).symm.trans hi; exact wordXYN_of_op h
  · cases (decode_opA h).symm.trans hi; exact wordNNN_of_op h
  · cases (decode_opB h).symm.trans hi; exact wordNNN_of_op h
  · cases (decode_opC h).symm.trans hi; exact wordXKK_of_op h
  · cases (decode_opD h).symm.trans hi; exact wordXYN_of_op h
  · exact encode_of_decodeE h ((decode_opE h).symm.trans hi)
  · exact encode_of_decodeF h ((decode_opF h).symm.trans hi)

/-- A word decodes to an instruction exactly when it is that instruction's word. -/
theorem decode_eq_instr_iff {w : Word} {i : Instr} : decode w = .instr i ↔ encode i = w :=
  ⟨encodeOfDecodedWord w i, fun h => h ▸ decodeEncodeAgree i⟩

end Sys2Proof
end

section
/-! The unsupported words, the words of high nibble 5 and 9, and a few samples (30_encoding.md R64, R66, R67). -/

namespace Sys2Proof

/-! ### What no test of the decoder selects -/

/-- A test of the decoder that selects an instruction leaves a word Unsupported exactly when it fails and the later tests
do. -/
@[simp] theorem ite_instr_eq_unsupported_iff {c : Prop} [Decidable c] {i : Instr} {d : Decoded} :
    (if c then .instr i else d) = .unsupported ↔ ¬c ∧ d = .unsupported := by
  by_cases hc : c <;> simp [hc]

/-- Among the words of one high nibble a word is given by its address field. -/
theorem eq_wordNNN_iff_of_op {w : Word} {op : Nibble} (h : fieldOp w = op) (nnn : Imm12) :
    w = wordNNN op nnn ↔ fieldNNN w = nnn := by
  constructor
  · rintro rfl
    exact fieldNNN_wordNNN op nnn
  · rintro rfl
    exact (wordNNN_of_op h).symm

theorem decode_op0_unsupported_iff {w : Word} (h : fieldOp w = 0x0) :
    decode w = .unsupported ↔ fieldNNN w ≠ 0x0E0 ∧ fieldNNN w ≠ 0x0EE := by
  have hclear : w = 0x00E0 ↔ fieldNNN w = 0x0E0 := eq_wordNNN_iff_of_op h 0x0E0
  have hret : w = 0x00EE ↔ fieldNNN w = 0x0EE := eq_wordNNN_iff_of_op h 0x0EE
  simp only [decode_op0 h, ite_instr_eq_unsupported_iff, hclear, hret, ne_eq, and_true]

/-- A low nibble is selected under 0x8 or stands in the list of R66. -/
theorem decode8_unsupported_iff (w : Word) :
    decode8 w = .unsupported ↔ fieldN w ∈ [0x8, 0x9, 0xA, 0xB, 0xC, 0xD, 0xF] := by
  simp only [decode8, ite_instr_eq_unsupported_iff, and_true]
  generalize fieldN w = n
  revert n
  decide

theorem decodeE_unsupported_iff (w : Word) : decodeE w = .unsupported ↔ fieldKK w ∉ [0x9E, 0xA1] := by
  simp [decodeE]

theorem decodeF_unsupported_iff (w : Word) :
    decodeF w = .unsupported ↔ fieldKK w ∉ [0x07, 0x0A, 0x15, 0x18, 0x1E, 0x29, 0x33, 0x55, 0x65] := by
  simp [decodeF]

/-- Settles O5, by the high nibble of the word: under 0x0, 0x8, 0xE and 0xF one class of R66 is left, elsewhere none. -/
theorem unsupportedWords : Obligations.UnsupportedWords := by
  intro w
  obtain h | h | h | h | h | h | h | h | h | h | h | h | h | h | h | h := fieldOp_cases w
  · simp [h, decode_op0_unsupported_iff]
  · simp [h, decode_op1]
  · simp [h, decode_op2]
  · simp [h, decode_op3]
  · simp [h, decode_op4]
  · simp [h, decode_op5]
  · simp [h, decode_op6]
  · simp [h, decode_op7]
  · simp [h, decode_op8, decode8_unsupported_iff]
  · simp [h, decode_op9]
  · simp [h, decode_opA]
  · simp [h, decode_opB]
  · simp [h, decode_opC]
  · simp [h, decode_opD]
  · simp [h, decode_opE, decodeE_unsupported_iff]
  · simp [h, decode_opF, decodeF_unsupported_iff]

/-! ### Samples and ignored nibbles -/

/-- Settles O1: each sample is a closed word. -/
theorem sampleWordsDecode : Obligations.SampleWordsDecode := by
  unfold Obligations.SampleWordsDecode
  decide

/-- Settles O6: high nibbles 5 and 9 select alone, and no meaning of the four kinds reads the ignored nibble. -/
theorem ignoredNibblesDoNothing : Obligations.IgnoredNibblesDoNothing :=
  ⟨fun _ => decode_op5, fun _ => decode_op9, fun _ _ _ _ _ => ⟨rfl, rfl, rfl, rfl⟩⟩

end Sys2Proof
end

section
/-! The opcode map (30_encoding.md R65): a word matches a row exactly when it is the word of an instruction of the row's
kind. -/

namespace Sys2Proof

variable {w : Word} {m : String} {v : Word} {op n : Nibble} {kk : Byte}

/-! ### What a mask sees of a word -/

theorem and_op (w : Word) : w &&& 0xF000 = wordNNN (fieldOp w) 0 := by
  simpa only [wordNNN_fields] using Laws.wordNNN_and_op (fieldOp w) (fieldNNN w)

theorem and_opN (w : Word) : w &&& 0xF00F = wordXYN (fieldOp w) 0 0 (fieldN w) := by
  simpa only [wordXYN_fields] using Laws.wordXYN_and_sub (fieldOp w) (fieldX w) (fieldY w) (fieldN w)

theorem and_opKK (w : Word) : w &&& 0xF0FF = wordXKK (fieldOp w) 0 (fieldKK w) := by
  simpa only [wordXKK_fields] using Laws.wordXKK_and_sub (fieldOp w) (fieldX w) (fieldKK w)

theorem and_op_eq_iff : w &&& 0xF000 = wordNNN op 0 ↔ fieldOp w = op := by
  rw [and_op]
  exact ⟨fun h => by simpa using congrArg fieldOp h, fun h => by rw [h]⟩

theorem and_opN_eq_iff : w &&& 0xF00F = wordXYN op 0 0 n ↔ fieldOp w = op ∧ fieldN w = n := by
  rw [and_opN]
  exact ⟨fun h => ⟨by simpa using congrArg fieldOp h, by simpa using congrArg fieldN h⟩, fun ⟨h, hn⟩ => by rw [h, hn]⟩

theorem and_opKK_eq_iff : w &&& 0xF0FF = wordXKK op 0 kk ↔ fieldOp w = op ∧ fieldKK w = kk := by
  rw [and_opKK]
  exact ⟨fun h => ⟨by simpa using congrArg fieldOp h, by simpa using congrArg fieldKK h⟩, fun ⟨h, hk⟩ => by rw [h, hk]⟩

/-! ### Every matching word is an instruction of the row's kind -/

/-- A word that matches the row is of the row's kind. -/
def OpcodeRow.Selects (row : OpcodeRow) : Prop :=
  ∀ w : Word, w &&& row.mask = row.value → ∃ i, decode w = .instr i ∧ i.mnemonic = row.mnemonic

namespace OpcodeRow.Selects

/-- A row of one exact word. -/
theorem of_word (i : Instr) : Selects ⟨i.mnemonic, 0xFFFF, encode i⟩ := by
  intro w h
  have hw : w = encode i := (BitVec.and_allOnes (x := w)).symm.trans h
  exact ⟨i, hw ▸ decodeEncodeAgree i, rfl⟩

/-- A row that fixes the high nibble alone, where every word of that nibble is of one kind. -/
theorem of_op {f : Word → Instr} (hd : ∀ {w}, fieldOp w = op → decode w = .instr (f w))
    (hv : wordNNN op 0 = v) (hm : ∀ w, (f w).mnemonic = m) : Selects ⟨m, 0xF000, v⟩ := by
  subst hv
  exact fun w h => ⟨f w, hd (and_op_eq_iff.mp h), hm w⟩

/-- A row that fixes the high and the low nibble, for a kind of format XY. -/
theorem of_opN (f : Nibble → Nibble → Instr) (he : ∀ x y, encode (f x y) = wordXYN op x y n)
    (hm : ∀ x y, (f x y).mnemonic = (f 0 0).mnemonic) : Selects ⟨(f 0 0).mnemonic, 0xF00F, encode (f 0 0)⟩ := by
  intro w h
  obtain ⟨hop, hn⟩ := and_opN_eq_iff.mp (h.trans (he 0 0))
  refine ⟨f (fieldX w) (fieldY w), decode_eq_instr_iff.mpr ?_, hm _ _⟩
  rw [he, ← hn]
  exact wordXYN_of_op hop

/-- A row that fixes the high nibble and the low byte, for a kind of format X. -/
theorem of_opKK (f : Nibble → Instr) (he : ∀ x, encode (f x) = wordXKK op x kk)
    (hm : ∀ x, (f x).mnemonic = (f 0).mnemonic) : Selects ⟨(f 0).mnemonic, 0xF0FF, encode (f 0)⟩ := by
  intro w h
  obtain ⟨hop, hkk⟩ := and_opKK_eq_iff.mp (h.trans (he 0))
  refine ⟨f (fieldX w), decode_eq_instr_iff.mpr ?_, hm _⟩
  rw [he, ← hkk]
  exact wordXKK_of_op hop

end OpcodeRow.Selects

section
open OpcodeRow.Selects

/-- Rows 1 to 17. -/
theorem opcodeRowsLow_selects : ∀ row ∈ opcodeRowsLow, row.Selects := by
  simp only [opcodeRowsLow, List.forall_mem_cons]
  exact ⟨of_word .clearScreen,
    of_word .ret,
    of_op decode_op1 rfl fun _ => rfl,
    of_op decode_op2 rfl fun _ => rfl,
    of_op decode_op3 rfl fun _ => rfl,
    of_op decode_op4 rfl fun _ => rfl,
    of_op decode_op5 rfl fun _ => rfl,
    of_op decode_op6 rfl fun _ => rfl,
    of_op decode_op7 rfl fun _ => rfl,
    of_opN .copy (fun _ _ => rfl) fun _ _ => rfl,
    of_opN .or (fun _ _ => rfl) fun _ _ => rfl,
    of_opN .and (fun _ _ => rfl) fun _ _ => rfl,
    of_opN .xor (fun _ _ => rfl) fun _ _ => rfl,
    of_opN .add (fun _ _ => rfl) fun _ _ => rfl,
    of_opN .sub (fun _ _ => rfl) fun _ _ => rfl,
    of_opN .shiftRight (fun _ _ => rfl) fun _ _ => rfl,
    of_opN .subReverse (fun _ _ => rfl) fun _ _ => rfl,
    List.forall_mem_nil _⟩

/-- Rows 18 to 34. -/
theorem opcodeRowsHigh_selects : ∀ row ∈ opcodeRowsHigh, row.Selects := by
  simp only [opcodeRowsHigh, List.forall_mem_cons]
  exact ⟨of_opN .shiftLeft (fun _ _ => rfl) fun _ _ => rfl,
    of_op decode_op9 rfl fun _ => rfl,
    of_op decode_opA rfl fun _ => rfl,
    of_op decode_opB rfl fun _ => rfl,
    of_op decode_opC rfl fun _ => rfl,
    of_op decode_opD rfl fun _ => rfl,
    of_opKK .skipIfPressed (fun _ => rfl) fun _ => rfl,
    of_opKK .skipIfNotPressed (fun _ => rfl) fun _ => rfl,
    of_opKK .readDelay (fun _ => rfl) fun _ => rfl,
    of_opKK .waitKey (fun _ => rfl) fun _ => rfl,
    of_opKK .setDelay (fun _ => rfl) fun _ => rfl,
    of_opKK .setSound (fun _ => rfl) fun _ => rfl,
    of_opKK .addIndex (fun _ => rfl) fun _ => rfl,
    of_opKK .loadDigitSprite (fun _ => rfl) fun _ => rfl,
    of_opKK .storeBCD (fun _ => rfl) fun _ => rfl,
    of_opKK .regDump (fun _ => rfl) fun _ => rfl,
    of_opKK .regLoad (fun _ => rfl) fun _ => rfl,
    List.forall_mem_nil _⟩

end

theorem opcodeRows_selects : ∀ row ∈ opcodeRows, row.Selects :=
  List.forall_mem_append.mpr ⟨opcodeRowsLow_selects, opcodeRowsHigh_selects⟩

/-! ### Every instruction of a row's kind matches the row -/

/-- Every instruction's word is in the row that bears its mnemonic. -/
theorem encode_matchesRow : ∀ i : Instr, Laws.MatchesRow.Statement i
  | .clearScreen => Laws.MatchesRow.clearScreen
  | .ret => Laws.MatchesRow.ret
  | .jump nnn => Laws.MatchesRow.jump nnn
  | .call nnn => Laws.MatchesRow.call nnn
  | .skipEqImm x kk => Laws.MatchesRow.skipEqImm x kk
  | .skipNeImm x kk => Laws.MatchesRow.skipNeImm x kk
  | .skipEqReg x y z => Laws.MatchesRow.skipEqReg x y z
  | .loadImm x kk => Laws.MatchesRow.loadImm x kk
  | .addImm x kk => Laws.MatchesRow.addImm x kk
  | .copy x y => Laws.MatchesRow.copy x y
  | .or x y => Laws.MatchesRow.or x y
  | .and x y => Laws.MatchesRow.and x y
  | .xor x y => Laws.MatchesRow.xor x y
  | .add x y => Laws.MatchesRow.add x y
  | .sub x y => Laws.MatchesRow.sub x y
  | .shiftRight x y => Laws.MatchesRow.shiftRight x y
  | .subReverse x y => Laws.MatchesRow.subReverse x y
  | .shiftLeft x y => Laws.MatchesRow.shiftLeft x y
  | .skipNeReg x y z => Laws.MatchesRow.skipNeReg x y z
  | .loadIndex nnn => Laws.MatchesRow.loadIndex nnn
  | .jumpPlusV0 nnn => Laws.MatchesRow.jumpPlusV0 nnn
  | .randMaskImm x kk => Laws.MatchesRow.randMaskImm x kk
  | .drawSprite x y n => Laws.MatchesRow.drawSprite x y n
  | .skipIfPressed x => Laws.MatchesRow.skipIfPressed x
  | .skipIfNotPressed x => Laws.MatchesRow.skipIfNotPressed x
  | .readDelay x => Laws.MatchesRow.readDelay x
  | .waitKey x => Laws.MatchesRow.waitKey x
  | .setDelay x => Laws.MatchesRow.setDelay x
  | .setSound x => Laws.MatchesRow.setSound x
  | .addIndex x => Laws.MatchesRow.addIndex x
  | .loadDigitSprite x => Laws.MatchesRow.loadDigitSprite x
  | .storeBCD x => Laws.MatchesRow.storeBCD x
  | .regDump x => Laws.MatchesRow.regDump x
  | .regLoad x => Laws.MatchesRow.regLoad x

/-- No two rows of the map bear one mnemonic. -/
theorem opcodeRows_mnemonic_nodup : (opcodeRows.map OpcodeRow.mnemonic).Nodup := by decide

theorem encode_matches_of_mnemonic {i : Instr} {row : OpcodeRow} (hrow : row ∈ opcodeRows)
    (hm : i.mnemonic = row.mnemonic) : encode i &&& row.mask = row.value := by
  obtain ⟨row', hrow', hm', hmatch⟩ := encode_matchesRow i
  have hsame : row' = row := List.inj_on_of_nodup_map opcodeRows_mnemonic_nodup hrow' hrow (hm'.trans hm)
  exact hsame ▸ hmatch

/-- Settles O4: a matching word is decoded to the row's kind, and an instruction of the kind has its word in the row. -/
theorem opcodeMapSelectsKind : Obligations.OpcodeMapSelectsKind := by
  refine fun row hrow w => ⟨opcodeRows_selects row hrow w, ?_⟩
  rintro ⟨i, hi, hm⟩
  rw [← decode_eq_instr_iff.mp hi]
  exact encode_matches_of_mnemonic hrow hm

end Sys2Proof
end

section
/-! How a Step begins and ends (40_step_cycle.md R80 to R88): the halted and the waiting core, the fetch that faults, the
Unsupported word, the instruction, and what every event answers. -/

namespace Sys2Proof.Machine

variable {s t : State}

/-! ### Three more ways a step begins -/

/-- A halted core does nothing (R81). -/
theorem coreStep_of_halted (h : s.err ≠ none) : coreStep s = .next s := by
  obtain ⟨k, hk⟩ := Option.ne_none_iff_exists'.mp h
  unfold coreStep
  rw [hk]

/-- An Unsupported word faults with PC advanced (R84, R85). -/
theorem coreStep_of_unsupported (hf : s.fetches) (hu : decode s.wordAtPc = .unsupported) :
    coreStep s = .next (s.advance.raise .unsupportedOpcode) := by
  rw [coreStep_of_fetches hf, runWord_of_unsupported hu]

/-- Where the host's next event is a Step, a step is one, with the Load window closed before it and the host's TimerTicks
after it. -/
theorem step_of_nextEvent_step (h : s.nextEvent = .step) :
    step s = onNext State.elapse (coreStep s.popEvent.closeLoad) := by
  unfold step
  rw [h]
  rfl

/-! ### One fetched word -/

/-- Settles O7: neither taking the event off the schedule nor closing the Load window touches what the fetch reads. -/
theorem stepRunsDecodedInstruction : Obligations.StepRunsDecodedInstruction := by
  intro s i hnext hf hi
  have hfetch : s.popEvent.closeLoad.fetches := hf
  have hword : decode s.popEvent.closeLoad.wordAtPc = .instr i := hi
  rw [step_of_nextEvent_step hnext, coreStep_of_instr hfetch hword]

/-- Once the fetch has advanced PC, the word it read is the one at PC - 2 (60_exceptions.md R151). -/
theorem State.faultingWord_of_next (hp : s.pc.toNat ≤ 4094) (ht : t.pc = s.pc + 2) (hm : Part.mem.same s t) :
    t.faultingWord = some s.wordAtPc := by
  have hpc : t.pc.toNat - 2 = s.pc.toNat := by rw [ht]; bv_omega
  have hr : s.pc.toNat + 1 < Config.memSize := by rw [memSize_eq]; omega
  rw [State.faultingWord, hpc, State.memReadWord_some hr, hm, hm]
  rfl

/-- Settles O8: the advance and the raise, each with its frame. -/
theorem unsupportedWordFaults : Obligations.UnsupportedWordFaults := by
  intro s hf hu
  have ⟨_, _, hp⟩ := hf
  have hframe : Unchanged [.pc, .err] s (s.advance.raise .unsupportedOpcode) :=
    (s.advance_frame.weaken (by simp)).trans ((s.advance.raise_frame _).weaken (by simp))
  exact ⟨_, coreStep_of_unsupported hf hu, rfl, rfl, hframe, State.faultingWord_of_next hp rfl fun _ => rfl⟩

/-- Settles O9: the fetch answers nothing above 4094, and a raise changes ERR alone. -/
theorem fetchOutOfRangeFaults : Obligations.FetchOutOfRangeFaults :=
  fun s he hw hp => ⟨_, coreStep_of_fetch_fault he hw hp, rfl, s.raise_frame _⟩

/-! ### The waiting core (R82, 45_keypad_timers.md R142) -/

@[simp] theorem State.awaitKey_err (s : State) (x : Nibble) (k : Option Nibble) : (s.awaitKey x k).err = s.err := by
  cases k <;> rfl

/-- A key reaches the register and WAIT alone. -/
theorem State.awaitKey_some_frame (s : State) (x d : Nibble) : Unchanged [.v x, .wait] s (s.awaitKey x (some d)) := by
  rw [State.awaitKey_some]
  exact ((s.setV_frame x _).weaken (by simp)).trans ((State.setWait_frame _ none).weaken (by simp))

theorem State.awaitKey_some_getV (s : State) (x d : Nibble) : (s.awaitKey x (some d)).getV x = keyByte d := by
  simp [State.awaitKey_some]

/-- With no key, a core that waits already goes on waiting as it is. -/
theorem State.awaitKey_none_of_waiting {w : Nibble} (hw : s.wait = some w) : s.awaitKey w none = s := by
  rw [State.awaitKey_none, ← hw]
  rfl

/-- Settles O42, by what the sample of KEY finds. -/
theorem waitingStepPollsKey : Obligations.WaitingStepPollsKey := by
  intro s w he hw
  refine ⟨_, coreStep_of_waiting he hw, State.awaitKey_pc .., fun k hk => ?_, fun hk => ?_⟩
  · rw [hk]
    exact ⟨by rw [State.awaitKey_some_getV, keyByte_toNat], rfl,
      (s.drawn_frame.weaken (by simp)).trans ((s.drawn.awaitKey_some_frame w k).weaken (by simp))⟩
  · have hd : s.drawn.wait = some w := hw
    rw [hk, State.awaitKey_none_of_waiting hd]
    exact s.drawn_frame

/-! ### What every event answers (R88, 70_reset_and_hazards.md R184) -/

/-- Every Step has a next state: a fault is one too. -/
theorem coreStep_next (s : State) : ∃ t, coreStep s = .next t := by
  by_cases he : s.err = none
  · cases hw : s.wait with
    | some w => exact ⟨_, coreStep_of_waiting he hw⟩
    | none =>
      by_cases hp : s.pc.toNat ≤ 4094
      · have hf : s.fetches := ⟨he, hw, hp⟩
        cases hd : decode s.wordAtPc with
        | instr i =>
          obtain ⟨t, ht, -⟩ := exec_leavesPcByTable i he
          exact ⟨t, (coreStep_of_instr hf hd).trans ht⟩
        | unsupported => exact ⟨_, coreStep_of_unsupported hf hd⟩
      · exact ⟨_, coreStep_of_fetch_fault he hw (Nat.lt_of_not_le hp)⟩
  · exact ⟨s, coreStep_of_halted he⟩

/-- Every event has a next state, but for a Load outside its window. -/
theorem runEvent_next_or_refused (e : Event) (s : State) :
    (∃ t, runEvent e s = .next t) ∨
      (runEvent e s = .refused .loadOutsideWindow ∧ s.env.loadOpen = false ∧ ∃ bytes, e = .load bytes) := by
  cases e with
  | step =>
    obtain ⟨u, hu⟩ := coreStep_next s.closeLoad
    exact .inl ⟨u.elapse, congrArg (onNext State.elapse) hu⟩
  | load bytes =>
    by_cases ho : s.env.loadOpen = true
    · exact .inl ⟨_, if_pos ho⟩
    · exact .inr ⟨if_neg ho, Bool.eq_false_of_not_eq_true ho, bytes, rfl⟩
  | _ => exact .inl ⟨_, rfl⟩

/-- Settles O12: a step is its event, with that event taken off the schedule. -/
theorem stepIsTotal : Obligations.StepIsTotal := fun s => runEvent_next_or_refused s.nextEvent s.popEvent

end Sys2Proof.Machine
end

section
/-! The latches ERR and WAIT from event to event (10_state.md R22, R23; 40_step_cycle.md R80 to R82). -/

namespace Sys2Proof.Machine

variable {s t : State}

/-- A Load leaves both latches, whatever it returns. -/
@[simp] theorem State.loadEvent_err (s : State) (bytes : List Byte) : (s.loadEvent bytes).err = s.err := by
  unfold State.loadEvent
  split <;> rfl

@[simp] theorem State.loadEvent_wait (s : State) (bytes : List Byte) : (s.loadEvent bytes).wait = s.wait := by
  unfold State.loadEvent
  split <;> rfl

/-- Settles O11: a Step of a halted core is the identity, and of the other events Reset alone writes ERR. -/
theorem haltedUntilReset : Obligations.HaltedUntilReset := by
  refine ⟨fun s he => coreStep_of_halted he, fun s t he hnext h => ?_⟩
  obtain ⟨-, u, hu, rfl⟩ | ⟨-, rfl⟩ | ⟨hreset, -⟩ | ⟨bytes, -, -, rfl⟩ | ⟨e, -, rfl⟩ := step_cases h
  · have hhalted : s.popEvent.closeLoad.err ≠ none := he
    rw [coreStep_of_halted hhalted] at hu
    cases hu
    rfl
  · rfl
  · exact absurd hreset hnext
  · exact s.popEvent.loadEvent_err bytes
  · rfl

/-- No instruction writes both latches: WaitKey, which writes WAIT, raises no fault. -/
theorem exec_keeps_err_or_wait {i : Instr} (h : exec i s = .next t) : t.err = s.err ∨ t.wait = s.wait := by
  cases i with
  | waitKey x => cases h; exact .inl (State.awaitKey_err ..)
  | _ =>
    obtain ⟨-, -, -, -, -, -, hwait⟩ := whoWritesWhat _ _ _ h
    exact .inr (by_contra fun hne => absurd (hwait hne) (by simp [Instr.mnemonic]))

theorem State.oneLatch.of_same (h : s.oneLatch) (he : t.err = s.err) (hw : t.wait = s.wait) : t.oneLatch := by
  unfold State.oneLatch
  rw [he, hw]
  exact h

theorem coreStep_keeps_oneLatch (hs : s.oneLatch) (h : coreStep s = .next t) : t.oneLatch := by
  obtain ⟨-, rfl⟩ | ⟨he, w, -, rfl⟩ | ⟨-, hw, -, rfl⟩ | ⟨⟨-, hw, -⟩, -, rfl⟩ |
    ⟨⟨he, hw, -⟩, i, -, hi⟩ := coreStep_cases h
  · exact hs
  · exact .inl ((State.awaitKey_err ..).trans he)
  · exact .inr hw
  · exact .inr hw
  · exact (exec_keeps_err_or_wait hi).imp (·.trans he) (·.trans hw)

/-- Settles O53, event by event: a Step writes one latch at most, a Reset clears both, and the others leave them. -/
theorem stepKeepsOneLatch : Obligations.StepKeepsOneLatch := by
  intro s t hs h
  have hpop : s.popEvent.oneLatch := hs
  obtain ⟨-, u, hu, rfl⟩ | ⟨-, rfl⟩ | ⟨-, rfl⟩ | ⟨bytes, -, -, rfl⟩ | ⟨e, -, rfl⟩ := step_cases h
  · have hclosed : s.popEvent.closeLoad.oneLatch := hpop
    exact (coreStep_keeps_oneLatch hclosed hu).of_same u.elapse_err u.elapse_wait
  · exact hpop.of_same rfl rfl
  · exact .inl (State.resetEvent_err _)
  · exact hpop.of_same (State.loadEvent_err ..) (State.loadEvent_wait ..)
  · exact hpop.of_same rfl rfl

end Sys2Proof.Machine
end

section
/-! The inputs KEY and RAND (40_step_cycle.md R88): an instruction commutes with a change of the host's side that it does not
sample. One lemma covers both inputs. -/

namespace Sys2Proof.Machine

/-- The state with the host's side changed by `f`. -/
def State.mapEnv (f : Env → Env) (s : State) : State := { s with env := f s.env }

/-- `f` changes inputs and schedule only: it commutes with the model's two counts. -/
structure KeepsCounters (f : Env → Env) : Prop where
  drawn_mapEnv : ∀ s : State, (s.mapEnv f).drawn = s.drawn.mapEnv f
  repaint_mapEnv : ∀ s : State, (s.mapEnv f).repaint = s.repaint.mapEnv f

theorem keepsCounters_key (k : Input (Option Nibble)) : KeepsCounters fun e => { e with key := k } :=
  ⟨fun _ => rfl, fun _ => rfl⟩

theorem keepsCounters_rand (b : Input Byte) : KeepsCounters fun e => { e with rand := b } :=
  ⟨fun _ => rfl, fun _ => rfl⟩

variable {f : Env → Env} (s : State)

/-! ### The operations and a change of the host's side -/

theorem State.skipIf_mapEnv (c : Bool) : (s.mapEnv f).skipIf c = (s.skipIf c).mapEnv f := by
  cases c <;> rfl

theorem State.awaitKey_mapEnv (x : Nibble) (k : Option Nibble) : (s.mapEnv f).awaitKey x k = (s.awaitKey x k).mapEnv f := by
  cases k <;> rfl

theorem State.readBytes_mapEnv (a n : Nat) : (s.mapEnv f).readBytes a n = s.readBytes a n := by
  rw [State.readBytes_eq, State.readBytes_eq]
  rfl

theorem State.storeBytes_mapEnv (bs : List Byte) : ∀ (s : State) (a : Nat),
    (s.mapEnv f).storeBytes a bs = (s.storeBytes a bs).mapEnv f := by
  induction bs with
  | nil => exact fun _ _ => rfl
  | cons b bs ih =>
    intro s a
    by_cases ha : a < Config.memSize
    · simp only [State.storeBytes, State.memWrite_some ha]
      exact ih { s with mem := s.mem.write a b } (a + 1)
    · simp only [State.storeBytes, State.memWrite_none ha]
      rfl

theorem State.loadRegs_mapEnv (rs : List Nibble) : ∀ (s : State) (a : Nat),
    (s.mapEnv f).loadRegs a rs = (s.loadRegs a rs).mapEnv f := by
  induction rs with
  | nil => exact fun _ _ => rfl
  | cons r rs ih =>
    intro s a
    by_cases ha : a < Config.memSize
    · simp only [State.loadRegs, State.memRead_some ha]
      exact ih (s.setV r (s.byteAt a)) (a + 1)
    · simp only [State.loadRegs, State.memRead_none ha]
      rfl

/-! ### The instructions -/

/-- An instruction commutes with a change of the host's side that leaves the samples it takes. -/
theorem exec_mapEnv (hf : KeepsCounters f) (i : Instr)
    (hkey : i.mnemonic ∈ ["SkipIfPressed", "SkipIfNotPressed", "WaitKey"] → (s.mapEnv f).keyNow = s.keyNow)
    (hrand : i.mnemonic = "RandMaskImm" → (s.mapEnv f).randNow = s.randNow) :
    exec i (s.mapEnv f) = onNext (State.mapEnv f) (exec i s) := by
  cases i with
  | skipIfPressed x | skipIfNotPressed x | waitKey x =>
    have hk := hkey (by simp [Instr.mnemonic])
    simp only [exec, execSkipIfPressed, execSkipIfNotPressed, execWaitKey, hk, hf.drawn_mapEnv s, State.skipIf_mapEnv,
      State.awaitKey_mapEnv]
    rfl
  | randMaskImm x kk =>
    have hr := hrand rfl
    simp only [exec, execRandMaskImm, hr, hf.drawn_mapEnv s]
    rfl
  | clearScreen => exact congrArg Host.Outcome.next (hf.repaint_mapEnv (s.setFb 0))
  | drawSprite x y n =>
    have hread : (s.mapEnv f).readBytes (s.mapEnv f).indexBase n.toNat = s.readBytes s.indexBase n.toNat :=
      s.readBytes_mapEnv ..
    simp only [exec, execDrawSprite, hread]
    cases s.readBytes s.indexBase n.toNat with
    | some rows => exact congrArg Host.Outcome.next (hf.repaint_mapEnv (State.setV (s.setFb _) vf _))
    | none => rfl
  | call nnn =>
    by_cases hd : s.depth.val < 16
    · rw [exec_call_of_push (State.push_ok hd), exec_call_of_push (State.push_ok (s := s.mapEnv f) hd)]
      rfl
    · rw [exec_call_of_full hd, exec_call_of_full (s := s.mapEnv f) hd]
      rfl
  | ret =>
    by_cases hd : 0 < s.depth.val
    · rw [exec_ret_of_pop (State.pop_ok hd), exec_ret_of_pop (State.pop_ok (s := s.mapEnv f) hd)]
      rfl
    · rw [exec_ret_of_empty hd, exec_ret_of_empty (s := s.mapEnv f) hd]
      rfl
  | storeBCD x | regDump x => exact congrArg Host.Outcome.next (State.storeBytes_mapEnv _ s _)
  | regLoad x => exact congrArg Host.Outcome.next (State.loadRegs_mapEnv _ s _)
  | skipEqImm x kk | skipNeImm x kk | skipEqReg x y z | skipNeReg x y z =>
    exact congrArg Host.Outcome.next (s.skipIf_mapEnv _)
  | _ => rfl

/-- Its next state then differs by the same change. -/
theorem exec_mapEnv_next {i : Instr} {s t : State} (hf : KeepsCounters f) (h : exec i s = .next t)
    (hkey : i.mnemonic ∈ ["SkipIfPressed", "SkipIfNotPressed", "WaitKey"] → (s.mapEnv f).keyNow = s.keyNow)
    (hrand : i.mnemonic = "RandMaskImm" → (s.mapEnv f).randNow = s.randNow) :
    exec i (s.mapEnv f) = .next (t.mapEnv f) := by
  rw [exec_mapEnv s hf i hkey hrand, h]
  rfl

/-- Settles O60: holding one input at another value leaves the samples of the other, and both counts. -/
theorem inputsMatterToTheirReaders : Obligations.InputsMatterToTheirReaders := by
  refine ⟨fun i s t s' hi ht hs' => ?_, fun i s t s' hi ht hs' => ?_⟩
  · have hexec := exec_mapEnv_next (keepsCounters_key t.env.key) hs' (absurd · hi) fun _ => rfl
    exact ⟨_, (congrArg (exec i) ht).trans hexec, rfl⟩
  · have hexec := exec_mapEnv_next (keepsCounters_rand t.env.rand) hs' (fun _ => rfl) (absurd · hi)
    exact ⟨_, (congrArg (exec i) ht).trans hexec, rfl⟩

end Sys2Proof.Machine
end

section
/-! Control transfer (41_control_flow.md): the jumps, the stack's push and pop with PC, and the four register skips. -/

namespace Sys2Proof.Machine

variable {s u : State}

/-! ### Jump and JumpPlusV0 -/

/-- The fetch fails exactly from 4095 on (40_step_cycle.md R83). -/
theorem State.fetch_eq_none_iff : s.fetch = none ↔ 4094 < s.pc.toNat := by
  refine ⟨fun h => Nat.lt_of_not_le fun hle => ?_, State.fetch_none⟩
  rw [State.fetch_some hle] at h
  cases h

/-- The last address alone lies beyond the last word. -/
theorem addrOperand_beyond_fetch_iff (nnn : Imm12) : 4094 < (addrOperand nnn).toNat ↔ nnn = 0xFFF := by
  rw [addrOperand_toNat]
  bv_omega

/-- Settles O21: the target is the operand, and the fetch there fails by its address alone. -/
theorem jumpResult : Obligations.JumpResult := fun nnn s =>
  ⟨decode_eq_instr_iff.mpr rfl, _, rfl, addrOperand_toNat nnn,
    State.fetch_eq_none_iff.trans (addrOperand_beyond_fetch_iff nnn), s.setPc_frame _⟩

/-- A 12-bit address and a byte add up in 16 bits without reduction. -/
theorem addrOperand_add_wideByte_toNat (nnn : Imm12) (b : Byte) :
    (addrOperand nnn + wideByte b).toNat = nnn.toNat + b.toNat := by
  have hn := nnn.isLt
  have hb := b.isLt
  have hlt : (addrOperand nnn).toNat + (wideByte b).toNat < 2 ^ 16 := by
    rw [addrOperand_toNat, wideByte_toNat]; omega
  rw [BitVec.toNat_add_of_lt hlt, addrOperand_toNat, wideByte_toNat]

/-- Settles O25, by the unreduced sum and its bound. -/
theorem jumpPlusV0Result : Obligations.JumpPlusV0Result := fun nnn s =>
  ⟨_, rfl, addrOperand_add_wideByte_toNat nnn _, addrOperand_add_wideByte_le nnn _, s.setPc_frame _⟩

/-! ### Call and Return -/

/-- A jump after a change of the stack leaves every part but PC and the stack. -/
theorem State.setPc_frame_of_stack (h : Unchanged [.stack] s u) (a : Word) : Unchanged [.pc, .stack] s (u.setPc a) :=
  (h.weaken (by simp)).trans ((u.setPc_frame a).weaken (by simp))

/-- Settles O22: with room the push's rule and the jump after it, on a full stack the fault. -/
theorem callResult : Obligations.CallResult := by
  refine ⟨fun nnn s h => ?_, fun nnn s h => ?_⟩
  · obtain ⟨u, hu, hd, htop, hkeep, hframe⟩ := State.push_spec s.pc h
    have hsp : u.sp = s.sp + 1 := by simp only [State.sp, hd]; omega
    exact ⟨_, exec_call_of_push hu, hsp, htop, hkeep, addrOperand_toNat nnn, State.setPc_frame_of_stack hframe _⟩
  · exact ⟨_, exec_call_of_full (State.sp_eq_top_iff.mp h), rfl, s.raise_frame _⟩

/-- Settles O23: with an entry the pop's rule and the jump to what it returned, on an empty stack the fault. -/
theorem returnResult : Obligations.ReturnResult := by
  refine ⟨fun s h => ?_, fun s h => ?_⟩
  · obtain ⟨u, hu, hd, hst, hframe⟩ := State.pop_spec (s := s) (k := s.depth.val - 1) (by omega) (by omega)
    have hsp : u.sp = s.sp - 1 := by simp only [State.sp, hd]; omega
    have hbound (hs : s.pcBounded) : (s.stack[s.depth.val - 1]'(by omega)).toNat ≤ 0x1000 :=
      ((State.pcBounded_iff.mp hs).2.pop hu).2
    exact ⟨_, exec_ret_of_pop hu, rfl, hsp, hst, hbound, State.setPc_frame_of_stack hframe _⟩
  · exact ⟨_, exec_ret_of_empty (State.sp_eq_empty_iff.mp h), rfl, s.raise_frame _⟩

/-! ### The register skips -/

/-- An instruction that is a skip on a test of `p` moves PC on by 2 exactly when `p` holds, and changes nothing else (R98). -/
theorem exec_skip_spec {i : Instr} {c : Bool} {p : Prop} [Decidable p] (hi : exec i s = .next (s.skipIf c))
    (hc : c = true ↔ p) :
    ∃ t, exec i s = .next t ∧ t.pc = (if p then s.pc + 2 else s.pc) ∧ Unchanged [.pc] s t :=
  ⟨_, hi, by simp only [State.skipIf_pc, hc], s.skipIf_frame c⟩

/-- Settles O26: the four tests, each as the condition it decides. -/
theorem registerSkips : Obligations.RegisterSkips := fun _ _ _ _ _ =>
  ⟨⟨decode_eq_instr_iff.mpr rfl, decode_eq_instr_iff.mpr rfl, decode_eq_instr_iff.mpr rfl, decode_eq_instr_iff.mpr rfl⟩,
    exec_skip_spec rfl beq_iff_eq, exec_skip_spec rfl bne_iff_ne, exec_skip_spec rfl beq_iff_eq,
    exec_skip_spec rfl bne_iff_ne⟩

end Sys2Proof.Machine
end

section
/-! Register load, arithmetic and logic (42_load_alu.md): one specification for the instructions that write a result alone, one
for those that write a flag before it, and the arithmetic of each result and flag. -/

namespace Sys2Proof.Machine

variable {s : State} {i : Instr} {x : Nibble}

/-! ### A result alone (R101 to R106, R112) -/

/-- An instruction that is one register write leaves the result there and changes nothing else. -/
theorem exec_setV_spec {b : Byte} (hi : exec i s = .next (s.setV x b)) :
    ∃ t, exec i s = .next t ∧ t.getV x = b ∧ Unchanged [.v x] s t :=
  ⟨_, hi, s.getV_setV_same x b, s.setV_frame x b⟩

/-- Settles O14, by the one register write. -/
theorem loadImmResult : Obligations.LoadImmResult := fun _ _ _ => ⟨decode_eq_instr_iff.mpr rfl, exec_setV_spec rfl⟩

/-- Settles O15: the one register write, of a sum that wraps at 256. -/
theorem addImmResult : Obligations.AddImmResult := by
  intro x kk s
  obtain ⟨t, ht, hx, hframe⟩ := exec_setV_spec (i := .addImm x kk) (s := s) rfl
  exact ⟨decode_eq_instr_iff.mpr rfl, t, ht, hx ▸ BitVec.toNat_add .., hframe⟩

/-- Settles O16: each of the four is one register write. -/
theorem logicResults : Obligations.LogicResults := fun _ _ _ =>
  ⟨exec_setV_spec rfl, exec_setV_spec rfl, exec_setV_spec rfl, exec_setV_spec rfl⟩

/-- A register write after a sample leaves every part but the register and the count of samples. -/
theorem State.drawn_setV_frame (s : State) (x : Nibble) (b : Byte) : Unchanged [.v x, .draws] s (s.drawn.setV x b) :=
  (s.drawn_frame.weaken (by simp)).trans ((s.drawn.setV_frame x b).weaken (by simp))

/-- Settles O20: a sample and one register write, with the two extremes of the mask. -/
theorem randMaskImmResult : Obligations.RandMaskImmResult := by
  intro x kk s
  have hx : (s.drawn.setV x (s.randNow &&& kk)).getV x = s.randNow &&& kk := s.drawn.getV_setV_same x _
  refine ⟨decode_eq_instr_iff.mpr rfl, _, rfl, hx, rfl, fun b hb => ?_, fun hk => ?_, s.drawn_setV_frame x _⟩
  · rw [hx, BitVec.getLsbD_and, hb, Bool.and_false]
  · rw [hx, hk]
    exact BitVec.and_allOnes

/-! ### A flag, then the result (R100) -/

/-- An instruction that is one flagged write leaves the result in its destination and, where that is not VF, the flag in VF,
and changes nothing else. -/
theorem exec_writeFlagged_spec {f b : Byte} (hi : exec i s = .next (s.writeFlagged x f b)) :
    ∃ t, exec i s = .next t ∧ t.getV x = b ∧ (x ≠ vf → t.getV vf = f) ∧ Unchanged [.v x, .v vf] s t := by
  refine ⟨_, hi, ?_, fun hx => ?_, s.writeFlagged_frame x f b⟩
  · rw [State.getV_writeFlagged, if_pos rfl]
  · rw [State.getV_writeFlagged, if_neg hx.symm, if_pos rfl]

/-! ### Sum and difference (R107 to R109, R113) -/

/-- The flag of a decided condition. -/
theorem flagByte_decide (p : Prop) [Decidable p] : flagByte (decide p) = if p then 1 else 0 := by
  simp only [flagByte, decide_eq_true_eq]

/-- Settles O17: the flagged write of the carry and the sum. -/
theorem addResult : Obligations.AddResult := by
  intro x y s
  obtain ⟨t, ht, hx, hf, hframe⟩ := exec_writeFlagged_spec (i := .add x y) (s := s) rfl
  exact ⟨t, ht, hx ▸ BitVec.toNat_add .., fun h => (hf h).trans (flagByte_decide _), hframe⟩

/-- A byte difference wraps to a value below 256. -/
theorem byte_sub_toNat (a b : Byte) :
    (a - b).toNat = if b.toNat ≤ a.toNat then a.toNat - b.toNat else a.toNat + 256 - b.toNat := by
  have ha := a.isLt
  have hb := b.isLt
  rw [BitVec.toNat_sub]
  split <;> omega

/-- An instruction that is the flagged write of the not-borrow and the difference of `a` and `b` leaves the wrapped difference
and the strict comparison. -/
theorem exec_difference_spec {a b : Byte} (hi : exec i s = .next (s.writeFlagged x (greaterFlag a b) (a - b))) :
    ∃ t, exec i s = .next t ∧
      (t.getV x).toNat = (if b.toNat ≤ a.toNat then a.toNat - b.toNat else a.toNat + 256 - b.toNat) ∧
      (x ≠ vf → t.getV vf = if b.toNat < a.toNat then 1 else 0) ∧ Unchanged [.v x, .v vf] s t := by
  obtain ⟨t, ht, hx, hf, hframe⟩ := exec_writeFlagged_spec hi
  exact ⟨t, ht, hx ▸ byte_sub_toNat a b, fun h => (hf h).trans (flagByte_decide _), hframe⟩

/-- Settles O18: Sub and SubReverse are the two orders of one difference. -/
theorem subResults : Obligations.SubResults := fun _ _ _ => ⟨exec_difference_spec rfl, exec_difference_spec rfl⟩

/-! ### Shifts (R110, R111) -/

/-- A flag's value. -/
theorem flagByte_toNat (c : Bool) : (flagByte c).toNat = c.toNat := by cases c <;> rfl

/-- The bit a right shift drops is the remainder by 2. -/
theorem lowBitFlag_toNat (a : Byte) : (lowBitFlag a).toNat = a.toNat % 2 := by
  rw [lowBitFlag, flagByte_toNat, BitVec.getLsbD, Nat.toNat_testBit, Nat.pow_zero, Nat.div_one]

/-- The bit a left shift drops is the quotient by 128. -/
theorem highBitFlag_toNat (a : Byte) : (highBitFlag a).toNat = a.toNat / 128 := by
  have ha := a.isLt
  rw [highBitFlag, flagByte_toNat, BitVec.getLsbD, Nat.toNat_testBit]
  omega

/-- A right shift by one bit is the quotient by 2. -/
theorem byte_shiftRight_one_toNat (a : Byte) : (a >>> 1).toNat = a.toNat / 2 := by
  rw [BitVec.toNat_ushiftRight, Nat.shiftRight_eq_div_pow, Nat.pow_one]

/-- A left shift by one bit is the double modulo 256. -/
theorem byte_shiftLeft_one_toNat (a : Byte) : (a <<< 1).toNat = a.toNat * 2 % 256 := by
  rw [BitVec.toNat_shiftLeft, Nat.shiftLeft_eq, Nat.pow_one]

/-- Settles O19: the flagged write of the bit dropped and the value shifted, in both directions. -/
theorem shiftResults : Obligations.ShiftResults := by
  refine fun x y s => ⟨?_, ?_⟩
  · obtain ⟨t, ht, hx, hf, hframe⟩ := exec_writeFlagged_spec (i := .shiftRight x y) (s := s) rfl
    exact ⟨t, ht, hx ▸ byte_shiftRight_one_toNat _, fun h => hf h ▸ lowBitFlag_toNat _, hframe⟩
  · obtain ⟨t, ht, hx, hf, hframe⟩ := exec_writeFlagged_spec (i := .shiftLeft x y) (s := s) rfl
    exact ⟨t, ht, hx ▸ byte_shiftLeft_one_toNat _, fun h => hf h ▸ highBitFlag_toNat _, hframe⟩

end Sys2Proof.Machine
end

section
/-! Index register and memory transfer (43_index_memory.md): what a run of stores or loads leaves, room or not, one
specification for the two instructions that store, and the round trip of RegDump and RegLoad. -/

namespace Sys2Proof.Machine

variable {s : State} {a c k : Nat} {bs : List Byte} {i : Instr}

/-! ### The index register (R120 to R122) -/

/-- Settles O27: I takes the operand, which has 12 bits. -/
theorem loadIndexResult : Obligations.LoadIndexResult := fun nnn s =>
  ⟨decode_eq_instr_iff.mpr rfl, _, rfl, addrOperand_toNat nnn, s.setI_frame _⟩

theorem word_add_wideByte_toNat (w : Word) (b : Byte) : (w + wideByte b).toNat = (w.toNat + b.toNat) % 65536 := by
  rw [BitVec.toNat_add, wideByte_toNat]

/-- Settles O28: the sum wraps at the width of I. -/
theorem addIndexResult : Obligations.AddIndexResult := fun _ s =>
  ⟨_, rfl, word_add_wideByte_toNat s.i _, s.setI_frame _⟩

/-- Five times a byte fits in 16 bits. -/
theorem wideByte_mul_five_toNat (b : Byte) : (wideByte b * 5).toNat = b.toNat * 5 := by
  have hb := b.isLt
  have hprod : (wideByte b * 5).toNat = b.toNat * 5 % 65536 := by rw [BitVec.toNat_mul, wideByte_toNat]; rfl
  rw [hprod, Nat.mod_eq_of_lt (by omega)]

/-- Settles O29: the product is exact, and the font's 0x050 is five times 16. -/
theorem loadDigitSpriteResult : Obligations.LoadDigitSpriteResult := by
  intro x s
  have hi : (s.setI (wideByte (s.getV x) * 5)).i.toNat = (s.getV x).toNat * 5 := wideByte_mul_five_toNat _
  refine ⟨_, rfl, hi, fun d => ?_, s.setI_frame _⟩
  rw [hi]
  omega

/-! ### Stores (R43, R154) -/

/-- What a byte reads as after one write: the byte written at its address, what was there at any other. -/
theorem State.byteAt_withMem_write (hs : s.memWf) (a : Nat) (b : Byte) (c : Nat) :
    State.byteAt { s with mem := s.mem.write a b } c = if c = a then b else s.byteAt c :=
  Memory.read_write hs a b c

/-- One store in range is a write, and the other stores follow it. -/
theorem State.storeBytes_cons (ha : a < Config.memSize) (b : Byte) (bs : List Byte) :
    s.storeBytes a (b :: bs) = State.storeBytes { s with mem := s.mem.write a b } (a + 1) bs := by
  rw [State.storeBytes, State.memWrite_some ha]

/-- A byte before the stores, past them or past memory keeps its value. -/
theorem State.storeBytes_byteAt_kept (hs : s.memWf) (hc : c < a ∨ a + bs.length ≤ c ∨ Config.memSize ≤ c) :
    (s.storeBytes a bs).byteAt c = s.byteAt c := by
  induction bs generalizing s a with
  | nil => rfl
  | cons b bs ih =>
    rw [List.length_cons] at hc
    by_cases ha : a < Config.memSize
    · have hwf : State.memWf { s with mem := s.mem.write a b } := Memory.write_wf hs ha b
      rw [State.storeBytes_cons ha, ih hwf (by omega), State.byteAt_withMem_write hs, if_neg (by omega)]
    · rw [State.storeBytes, State.memWrite_none ha, State.raise_byteAt]

/-- The k-th byte stands k addresses after the first, where that address exists, whether the rest fits or not. -/
theorem State.storeBytes_byteAt_stored (hs : s.memWf) (hk : k < bs.length) (hc : a + k < Config.memSize) :
    (s.storeBytes a bs).byteAt (a + k) = bs[k] := by
  induction bs generalizing s a k with
  | nil => exact absurd hk (Nat.not_lt_zero k)
  | cons b bs ih =>
    have ha : a < Config.memSize := by omega
    have hwf : State.memWf { s with mem := s.mem.write a b } := Memory.write_wf hs ha b
    rw [State.storeBytes_cons ha]
    cases k with
    | zero =>
      have hkept := State.storeBytes_byteAt_kept (bs := bs) hwf (.inl (Nat.lt_add_one a))
      rw [State.byteAt_withMem_write hs, if_pos rfl] at hkept
      exact hkept
    | succ k =>
      have hplace : a + (k + 1) = a + 1 + k := by omega
      rw [hplace] at hc ⊢
      exact ih hwf (Nat.lt_of_succ_lt_succ hk) hc

/-- ERR after stores: the fault iff an address they reach does not exist. -/
theorem State.storeBytes_err (s : State) (a : Nat) (bs : List Byte) :
    (s.storeBytes a bs).err = if bs = [] ∨ a + bs.length ≤ Config.memSize then s.err else some .addressOutOfRange := by
  by_cases hnil : bs = []
  · rw [hnil, if_pos (.inl rfl), State.storeBytes]
  by_cases hfits : a + bs.length ≤ Config.memSize
  · rw [State.storeBytes_fits hfits, if_pos (.inr hfits)]
  · rw [State.storeBytes_overflows hnil (Nat.lt_of_not_le hfits), State.raise_err, if_neg (not_or_intro hnil hfits)]

/-! ### Frames of stores and loads -/

/-- A part listed in a frame can be left out where it is the same. -/
theorem Unchanged.drop {p : Part} {but : List Part} {t : State} (h : Unchanged (p :: but) s t) (hp : p.same s t) :
    Unchanged but s t := by
  refine ⟨fun q hq => ?_, h.2⟩
  by_cases hqp : q = p
  · rw [hqp]; exact hp
  · exact h.1 q (by simp [hqp, hq])

/-- Stores leave every part but memory and ERR. -/
theorem State.storeBytes_frame (s : State) (a : Nat) (bs : List Byte) : Unchanged [.err, .mem] s (s.storeBytes a bs) := by
  obtain ⟨m, e, h⟩ := State.storeBytes_rest bs s a
  rw [h]
  refine ⟨fun p hp => ?_, rfl, rfl, rfl, rfl, rfl, rfl, rfl⟩
  cases p with
  | mem | err => simp at hp
  | fb => exact fun _ => rfl
  | stack => exact ⟨rfl, rfl⟩
  | _ => rfl

/-- Loads leave every part but the registers they name and ERR. -/
theorem State.loadRegs_frame (s : State) (a : Nat) (rs : List Nibble) :
    Unchanged (.err :: rs.map .v) s (s.loadRegs a rs) := by
  have hregs (r : Nibble) (hr : .v r ∉ .err :: rs.map Part.v) : (s.loadRegs a rs).getV r = s.getV r :=
    State.loadRegs_getV_of_not_mem (by simpa using hr)
  obtain ⟨v, e, h⟩ := State.loadRegs_rest rs s a
  rw [h] at hregs ⊢
  refine ⟨fun p hp => ?_, rfl, rfl, rfl, rfl, rfl, rfl, rfl⟩
  cases p with
  | v r => exact hregs r hp
  | err => simp at hp
  | mem | fb => exact fun _ => rfl
  | stack => exact ⟨rfl, rfl⟩
  | _ => rfl

/-! ### StoreBCD and RegDump (R123, R124) -/

/-- An instruction that stores bytes from I on, with room for them: each stands in its place, and no other part changes. -/
theorem exec_store_spec_of_fits (hi : exec i s = .next (s.storeBytes s.indexBase bs)) (hs : s.memWf)
    (h : bs = [] ∨ s.indexBase + bs.length ≤ Config.memSize) :
    ∃ t, exec i s = .next t ∧ (∀ j (hj : j < bs.length), t.byteAt (s.indexBase + j) = bs[j]) ∧
      (∀ c, (c < s.indexBase ∨ s.indexBase + bs.length ≤ c) → t.byteAt c = s.byteAt c) ∧ Unchanged [.mem] s t := by
  refine ⟨_, hi, fun j hj => ?_, fun c hc => State.storeBytes_byteAt_kept hs (by omega), ?_⟩
  · have hne : bs ≠ [] := List.ne_nil_of_length_pos (by omega)
    have hfits := h.resolve_left hne
    exact State.storeBytes_byteAt_stored hs hj (by omega)
  · have herr : (s.storeBytes s.indexBase bs).err = s.err := by rw [State.storeBytes_err, if_pos h]
    exact (s.storeBytes_frame _ _).drop herr

/-- An instruction that stores bytes from I on, without room for them: the fault, and the bytes whose address exists. -/
theorem exec_store_spec_of_overflows (hi : exec i s = .next (s.storeBytes s.indexBase bs)) (hs : s.memWf)
    (hne : bs ≠ []) (h : Config.memSize < s.indexBase + bs.length) :
    ∃ t, exec i s = .next t ∧ t.err = some .addressOutOfRange ∧
      (∀ j (hj : j < bs.length), s.indexBase + j ≤ 4095 → t.byteAt (s.indexBase + j) = bs[j]) ∧
      (∀ c, (c < s.indexBase ∨ 4095 < c) → t.byteAt c = s.byteAt c) ∧ Unchanged [.mem, .err] s t := by
  refine ⟨_, hi, ?_, fun j hj hle => ?_, fun c hc => State.storeBytes_byteAt_kept hs (hc.imp_right .inr), ?_⟩
  · rw [State.storeBytes_err, if_neg (not_or_intro hne (Nat.not_le_of_lt h))]
  · exact State.storeBytes_byteAt_stored hs hj (Nat.lt_succ_of_le hle)
  · exact (s.storeBytes_frame _ _).weaken (by simp)

/-- The digits are the decimal ones, hundreds first. -/
theorem bcdDigits_toNat (b : Byte) :
    (bcdDigits b).map BitVec.toNat = [b.toNat / 100, b.toNat / 10 % 10, b.toNat % 10] := by
  simp [bcdDigits]

/-- Settles O30: the stores of three digits, with room and without. -/
theorem storeBCDResult : Obligations.StoreBCDResult := by
  refine ⟨fun x s hs h => ?_, fun x s hs h => ?_⟩
  · have hfits : s.indexBase + (bcdDigits (s.getV x)).length ≤ Config.memSize := Nat.succ_le_succ h
    obtain ⟨t, ht, hbytes, hkept, hframe⟩ := exec_store_spec_of_fits (i := .storeBCD x) rfl hs (.inr hfits)
    have hdigit (j : Nat) (hj : j < 3) : (t.byteAt (s.indexBase + j)).toNat =
        [(s.getV x).toNat / 100, (s.getV x).toNat / 10 % 10, (s.getV x).toNat % 10][j] := by
      simp only [← bcdDigits_toNat, List.getElem_map]
      exact congrArg BitVec.toNat (hbytes j hj)
    exact ⟨t, ht, hdigit 0 (by decide), hdigit 1 (by decide), hdigit 2 (by decide), hkept, hframe⟩
  · exact exec_store_spec_of_overflows rfl hs (List.cons_ne_nil _ _) (Nat.succ_lt_succ h)

@[simp] theorem firstRegs_eq_nil_iff {x : Nibble} : firstRegs x = [] ↔ x = 0 := by
  rw [← List.length_eq_zero_iff, firstRegs_length, BitVec.toNat_eq]
  rfl

@[simp] theorem State.firstValues_eq_nil_iff {x : Nibble} : s.firstValues x = [] ↔ x = 0 := by
  rw [State.firstValues, List.map_eq_nil_iff, firstRegs_eq_nil_iff]

/-- The j-th value is that of V[j]. -/
theorem State.firstValues_getElem (s : State) (x : Nibble) {j : Nat} (h : j < (s.firstValues x).length) :
    (s.firstValues x)[j] = s.getV (BitVec.ofNat 4 j) := by
  simp [State.firstValues]

/-- Settles O31: the stores of the first registers' values, with room and without. -/
theorem regDumpResult : Obligations.RegDumpResult := by
  refine ⟨fun x s hs h => ?_, fun x s hs hx h => ?_⟩
  · obtain ⟨t, ht, hbytes, hkept, hframe⟩ := exec_store_spec_of_fits (i := .regDump x) (bs := s.firstValues x) rfl hs
      (by simpa [State.indexBase, memSize_eq] using h)
    simp only [State.firstValues_length, State.firstValues_getElem] at hbytes hkept
    exact ⟨t, ht, hbytes, hkept, hframe⟩
  · obtain ⟨t, ht, herr, hbytes, hkept, hframe⟩ := exec_store_spec_of_overflows (i := .regDump x) (bs := s.firstValues x)
      rfl hs (by simpa using hx) (by simpa [State.indexBase, memSize_eq] using h)
    simp only [State.firstValues_length, State.firstValues_getElem] at hbytes
    exact ⟨t, ht, herr, hbytes, hkept, hframe⟩

/-! ### RegLoad (R125) -/

/-- What RegLoad leaves in each register: the byte at its address where it is counted and the address exists, what it held
else. -/
theorem State.loadRegs_firstRegs_getV (s : State) (a : Nat) (x q : Nibble) :
    (s.loadRegs a (firstRegs x)).getV q =
      if q.toNat < x.toNat ∧ a + q.toNat < Config.memSize then s.byteAt (a + q.toNat) else s.getV q := by
  by_cases hq : q.toNat < x.toNat
  · have hlen : q.toNat < (firstRegs x).length := by rwa [firstRegs_length]
    have hget : (firstRegs x)[q.toNat] = q := by rw [firstRegs_getElem, BitVec.ofNat_toNat, BitVec.setWidth_eq]
    by_cases ha : a + q.toNat < Config.memSize
    · rw [if_pos ⟨hq, ha⟩, ← State.loadRegs_getV hlen (firstRegs_nodup x) ha, hget]
    · have hout := State.loadRegs_getV_out (s := s) hlen (firstRegs_nodup x) (Nat.le_of_not_lt ha)
      rw [hget] at hout
      rw [if_neg fun h => ha h.2, hout]
  · rw [if_neg fun h => hq h.1, State.loadRegs_getV_of_not_mem (mt mem_firstRegs.mp hq)]

/-- ERR after RegLoad's loads: the fault iff an address they reach does not exist. -/
theorem State.loadRegs_firstRegs_err (s : State) (a : Nat) (x : Nibble) :
    (s.loadRegs a (firstRegs x)).err =
      if x = 0 ∨ a + x.toNat ≤ Config.memSize then s.err else some .addressOutOfRange := by
  simp only [State.loadRegs_err, firstRegs_eq_nil_iff, firstRegs_length]

/-- Settles O32: what the loads leave in each register, with ERR by the range of their addresses. -/
theorem regLoadResult : Obligations.RegLoadResult := by
  refine ⟨fun x s h => ?_, fun x s hx h => ?_⟩
  · have herr : (s.loadRegs s.indexBase (firstRegs x)).err = s.err := by
      rw [State.loadRegs_firstRegs_err]; exact if_pos h
    refine ⟨_, rfl, fun q => ?_, (s.loadRegs_frame _ _).drop herr⟩
    have hrange (hq : q.toNat < x.toNat) : s.indexBase + q.toNat < Config.memSize := by
      have hx : x ≠ 0 := by rintro rfl; exact Nat.not_lt_zero _ hq
      exact (Nat.add_lt_add_left hq _).trans_le (h.resolve_left hx)
    simp only [State.loadRegs_firstRegs_getV, and_iff_left_of_imp hrange]
  · have herr : (s.loadRegs s.indexBase (firstRegs x)).err = some .addressOutOfRange := by
      rw [State.loadRegs_firstRegs_err]; exact if_neg (not_or_intro hx (Nat.not_le_of_lt h))
    refine ⟨_, rfl, herr, fun q => ?_, s.loadRegs_frame _ _⟩
    simp only [State.loadRegs_firstRegs_getV, memSize_eq, Nat.lt_succ_iff]

/-- Settles O33: RegLoad reads at I what RegDump stored there, as RegDump keeps I. -/
theorem regDumpRegLoadRoundTrip : Obligations.RegDumpRegLoadRoundTrip := by
  intro x s t u hs h ht hi hm
  obtain ⟨t', ht', hstored, -, hframe⟩ := regDumpResult.1 x s hs (.inr h)
  obtain rfl : t' = t := by
    rw [ht] at ht'; cases ht'; rfl
  have hui : u.i = s.i := hi.trans (hframe.1 .i (by decide))
  obtain ⟨w, hw, hloaded, -⟩ := regLoadResult.1 x u (.inr (by rwa [hui]))
  refine ⟨w, hw, fun q => ?_⟩
  rw [hloaded]
  split
  case isTrue hq =>
    rw [State.indexBase, hui, State.byteAt, hm]
    exact (hstored q.toNat hq).trans (by rw [BitVec.ofNat_toNat, BitVec.setWidth_eq])
  case isFalse => rfl

end Sys2Proof.Machine
end

section
/-! Framebuffer and display (44_display.md): coordinates, ClearScreen, and the sprite. A drawing flips the pixels under a mask:
a pixel's, then those of a row, then those of the whole sprite, each the union of two disjoint smaller masks. -/

namespace Sys2Proof.Machine

variable {s : State} {px py yy idx n : Nat} {row : Byte} {rows : List Byte} {f : BitVec 2048} {c d e : Canvas}

/-! ### Coordinates and ClearScreen (R130, R131) -/

theorem posToIndex_eq (x y : Nat) : posToIndex x y = y * 64 + x % 64 := rfl

theorem indexToPos_eq (idx : Nat) : indexToPos idx = (idx % 64, idx / 64) := rfl

/-- An index is a pixel's exactly when its column is the pixel's, modulo 64, and its row is the pixel's. -/
theorem eq_posToIndex_iff {x y : Nat} : idx = posToIndex x y ↔ idx % 64 = x % 64 ∧ idx / 64 = y := by
  rw [posToIndex_eq]
  omega

/-- Settles O34, by division with remainder. -/
theorem pixelCoordinatesBijection : Obligations.PixelCoordinatesBijection := by
  refine ⟨fun idx h => ?_, fun x y hx hy => ?_, fun x y => ?_⟩
  · rw [indexToPos_eq]
    exact ⟨Nat.mod_lt _ (by decide), Nat.div_lt_of_lt_mul h, (eq_posToIndex_iff.mpr ⟨(Nat.mod_mod ..).symm, rfl⟩).symm⟩
  · obtain ⟨hcol, hrow⟩ := eq_posToIndex_iff.mp (rfl : posToIndex x y = posToIndex x y)
    rw [indexToPos_eq, hcol, hrow, Nat.mod_eq_of_lt hx, posToIndex_eq]
    exact ⟨by omega, rfl⟩
  · rw [posToIndex_eq, posToIndex_eq, Nat.add_mod_right]

/-- Settles O35, from what an all-clear framebuffer shows and the frames of the two writes. -/
theorem clearScreenResult : Obligations.ClearScreenResult := fun s =>
  ⟨_, rfl, pixel_zero, rfl, ((s.setFb_frame 0).weaken (by simp)).trans ((s.setFb 0).repaint_frame.weaken (by simp))⟩

/-! ### Masks -/

/-- Two framebuffers with the same pixels are the same. -/
theorem eq_of_pixel_eq {g : BitVec 2048} (h : ∀ idx, idx < 2048 → pixel f idx = pixel g idx) : f = g :=
  BitVec.eq_of_getLsbD_eq h

/-- `d` is `c` with the pixels under the mask `m` flipped, and with the collision found if one of them was set. -/
def Overlays (m : Nat → Bool) (c d : Canvas) : Prop :=
  (∀ idx, idx < 2048 → pixel d.1 idx = (pixel c.1 idx ^^ m idx)) ∧
    (d.2 = true ↔ c.2 = true ∨ ∃ idx, idx < 2048 ∧ pixel c.1 idx = true ∧ m idx = true)

section
variable {m k l : Nat → Bool}

/-- A mask that is empty on the screen changes nothing. -/
theorem Overlays.refl (h : ∀ idx, idx < 2048 → m idx = false) (c : Canvas) : Overlays m c c := by
  refine ⟨fun idx hidx => by rw [h idx hidx, Bool.xor_false], .inl, ?_⟩
  rintro (hc | ⟨idx, hidx, -, hm⟩)
  · exact hc
  · simp [h idx hidx] at hm

/-- Two disjoint masks one after the other are their union: the second meets the pixels as they were before the first. -/
theorem Overlays.trans (hk : Overlays k c d) (hl : Overlays l d e) (hm : ∀ idx, idx < 2048 → m idx = (k idx || l idx))
    (hdisj : ∀ idx, k idx = true → l idx = false) : Overlays m c e := by
  obtain ⟨hkpixel, hkcoll⟩ := hk
  obtain ⟨hlpixel, hlcoll⟩ := hl
  refine ⟨fun idx hidx => ?_, ?_⟩
  · rw [hlpixel idx hidx, hkpixel idx hidx, hm idx hidx]
    cases hbit : k idx with
    | false => simp
    | true => simp [hdisj idx hbit]
  · rw [hlcoll, hkcoll, or_assoc, ← exists_or]
    refine or_congr_right (exists_congr fun idx => ?_)
    rw [← and_or_left]
    refine and_congr_right fun hidx => ?_
    rw [hkpixel idx hidx, hm idx hidx]
    cases hbit : k idx with
    | false => simp
    | true => simp [hdisj idx hbit]

/-- Masks that agree on the screen leave the same canvas. -/
theorem Overlays.unique (hd : Overlays k c d) (he : Overlays l c e) (h : ∀ idx, idx < 2048 → k idx = l idx) : d = e := by
  obtain ⟨hdpixel, hdcoll⟩ := hd
  obtain ⟨hepixel, hecoll⟩ := he
  have hpixel : d.1 = e.1 := eq_of_pixel_eq fun idx hidx => by rw [hdpixel idx hidx, hepixel idx hidx, h idx hidx]
  have hcoll : d.2 = true ↔ e.2 = true := by
    rw [hdcoll, hecoll]
    exact or_congr_right (exists_congr fun idx => and_congr_right fun hidx => by rw [h idx hidx])
  exact Prod.ext hpixel (Bool.eq_iff_iff.mpr hcoll)

end

/-! ### The masks of a pixel, a row and a sprite (R132) -/

theorem drawPixel_overlays {k : Nat} (hk : k < 2048) (bit : Bool) (c : Canvas) :
    Overlays (fun idx => decide (idx = k) && bit) c (drawPixel k bit c) := by
  refine ⟨fun idx _ => drawPixel_pixel hk bit c idx, ?_⟩
  rw [drawPixel_collision, Bool.or_eq_true, Bool.and_eq_true]
  refine or_congr_right ⟨fun ⟨hset, hbit⟩ => ⟨k, hk, hset, by simpa using hbit⟩, fun ⟨idx, _, hset, hm⟩ => ?_⟩
  obtain ⟨rfl, hbit⟩ : idx = k ∧ bit = true := by simpa using hm
  exact ⟨hset, hbit⟩

/-- How many columns a pixel is right of the start column, modulo 64. -/
def columnFrom (px idx : Nat) : Nat := (idx % 64 + 64 - px % 64) % 64

theorem columnFrom_add_width (px idx : Nat) : columnFrom (px + 64) idx = columnFrom px idx := by
  rw [columnFrom, Nat.add_mod_right, columnFrom]

theorem eq_posToIndex_add_iff {b : Nat} (hb : b < 64) :
    idx = posToIndex (px + b) yy ↔ idx / 64 = yy ∧ columnFrom px idx = b := by
  rw [eq_posToIndex_iff, columnFrom]
  omega

/-- The mask of the first `n` bits of a row. -/
def rowBit (px yy : Nat) (row : Byte) (n idx : Nat) : Bool :=
  decide (idx / 64 = yy) && decide (columnFrom px idx < n) && row.getLsbD (7 - columnFrom px idx)

/-- Where a row's bits are. -/
theorem rowBit_place (h : rowBit px yy row n idx = true) : idx / 64 = yy ∧ columnFrom px idx < n := by
  simp only [rowBit, Bool.and_eq_true, decide_eq_true_eq] at h
  exact h.1

/-- One bit more. -/
theorem rowBit_succ (hn : n < 64) (px yy : Nat) (row : Byte) (idx : Nat) :
    rowBit px yy row (n + 1) idx =
      (rowBit px yy row n idx || (decide (idx = posToIndex (px + n) yy) && row.getLsbD (7 - n))) := by
  simp only [rowBit, eq_posToIndex_add_iff hn]
  obtain hlt | rfl | hgt := Nat.lt_trichotomy (columnFrom px idx) n
  · simp [hlt, hlt.ne, Nat.lt_succ_of_lt hlt]
  · simp
  · simp [hgt.ne', Nat.not_lt_of_gt hgt, Nat.not_le_of_gt hgt]

/-- The bits of a row, drawn one after the other: no two over one pixel. -/
theorem drawRow_bits_overlays (hyy : yy < 32) (px : Nat) (row : Byte) (c : Canvas) (n : Nat) (hn : n ≤ 64) :
    Overlays (rowBit px yy row n) c
      ((List.range n).foldl (fun c b => drawPixel (posToIndex (px + b) yy) (row.getLsbD (7 - b)) c) c) := by
  induction n with
  | zero => exact .refl (by simp [rowBit]) c
  | succ n ih =>
    have hpos : posToIndex (px + n) yy < 2048 := by rw [posToIndex_eq]; omega
    rw [List.range_succ, List.foldl_append]
    refine (ih (by omega)).trans (drawPixel_overlays hpos _ _) (fun idx _ => rowBit_succ hn px yy row idx) fun idx h => ?_
    have hne : idx ≠ posToIndex (px + n) yy := fun he =>
      (rowBit_place h).2.ne ((eq_posToIndex_add_iff hn).mp he).2
    rw [decide_eq_false hne, Bool.false_and]

theorem drawRow_overlays (hyy : yy < 32) (px : Nat) (row : Byte) (c : Canvas) :
    Overlays (rowBit px yy row 8) c (drawRow px yy row c) :=
  drawRow_bits_overlays hyy px row c 8 (by decide)

theorem spriteBit_eq (px py : Nat) (rows : List Byte) (idx : Nat) :
    spriteBit px py rows idx = (decide (py ≤ idx / 64) && decide (columnFrom px idx < 8) &&
      (rows.getD (idx / 64 - py) 0).getLsbD (7 - columnFrom px idx)) := rfl

/-- A sprite covers nothing above its first row. -/
theorem spriteBit_of_row_lt (h : idx / 64 < py) : spriteBit px py rows idx = false := by
  rw [spriteBit_eq, decide_eq_false (Nat.not_le_of_lt h), Bool.false_and, Bool.false_and]

/-- One that starts below the screen covers no pixel of it. -/
theorem spriteBit_of_below (hpy : 32 ≤ py) (hidx : idx < 2048) : spriteBit px py rows idx = false :=
  spriteBit_of_row_lt (by omega)

@[simp] theorem spriteBit_nil (px py idx : Nat) : spriteBit px py [] idx = false := by
  simp [spriteBit_eq]

/-- A sprite covers what its first row covers, and what the sprite of its other rows does. -/
theorem spriteBit_cons (px py : Nat) (row : Byte) (rows : List Byte) (idx : Nat) :
    spriteBit px py (row :: rows) idx = (rowBit px py row 8 idx || spriteBit px (py + 1) rows idx) := by
  obtain habove | rfl | hlater := Nat.lt_trichotomy (idx / 64) py
  · rw [spriteBit_of_row_lt habove, spriteBit_of_row_lt (Nat.lt_succ_of_lt habove), rowBit, decide_eq_false habove.ne]
    rfl
  · rw [spriteBit_of_row_lt (Nat.lt_succ_self _), Bool.or_false, spriteBit_eq, rowBit]
    simp
  · have hplace : idx / 64 - py = idx / 64 - (py + 1) + 1 := by omega
    rw [rowBit, spriteBit_eq, spriteBit_eq, hplace, List.getD_cons_succ]
    simp [hlater.ne', hlater.le, Nat.succ_le_of_lt hlater]

/-- On the screen, the rows that would fall below it cover nothing. -/
theorem spriteBit_take (hidx : idx < 2048) (px py : Nat) (rows : List Byte) :
    spriteBit px py (rows.take (32 - py)) idx = spriteBit px py rows idx := by
  by_cases h : idx / 64 < py
  · rw [spriteBit_of_row_lt h, spriteBit_of_row_lt h]
  · have hrow : idx / 64 - py < 32 - py := by omega
    rw [spriteBit_eq, spriteBit_eq, List.getD_eq_getElem?_getD, List.getElem?_take_of_lt hrow,
      ← List.getD_eq_getElem?_getD]

/-! ### Drawing a sprite (R132, R134) -/

/-- The rows of a sprite, drawn one after the other down to the bottom of the screen: no two over one pixel. -/
theorem drawRows_overlays (px py : Nat) (rows : List Byte) (c : Canvas) :
    Overlays (spriteBit px py rows) c (drawRows px py rows c) := by
  induction rows generalizing py c with
  | nil => exact .refl (fun _ _ => spriteBit_nil ..) c
  | cons row rows ih =>
    rw [drawRows]
    split
    case isTrue hbelow => exact .refl (fun _ => spriteBit_of_below hbelow) c
    case isFalse hin =>
      refine (drawRow_overlays (by omega) px row c).trans (ih (py + 1) _) (fun _ _ => spriteBit_cons ..) fun idx h => ?_
      obtain ⟨hrow, -⟩ := rowBit_place h
      exact spriteBit_of_row_lt (by omega)

theorem drawSprite_overlays (px py : Nat) (rows : List Byte) (f : BitVec 2048) :
    Overlays (spriteBit px py rows) (f, false) (drawSprite px py rows f) := drawRows_overlays px py rows (f, false)

/-- Settles O36: the sprite's mask over a canvas with no collision yet. -/
theorem spriteCompositing : Obligations.SpriteCompositing := by
  intro px py rows f
  obtain ⟨hpixel, hcoll⟩ := drawSprite_overlays px py rows f
  exact ⟨hpixel, by simpa using hcoll⟩

/-- Settles O38: a pixel flipped twice is as it was, and the second drawing meets the pixels the first one left. -/
theorem spriteTwiceRestores : Obligations.SpriteTwiceRestores := by
  intro px py rows f
  obtain ⟨hfirst, -⟩ := spriteCompositing px py rows f
  obtain ⟨hsecond, hcoll⟩ := spriteCompositing px py rows (drawSprite px py rows f).1
  refine ⟨eq_of_pixel_eq fun idx hidx => ?_, hcoll.trans (exists_congr fun idx => and_congr_right fun hidx => ?_)⟩
  · rw [hsecond idx hidx, hfirst idx hidx, Bool.xor_assoc, Bool.xor_self, Bool.xor_false]
  · rw [hfirst idx hidx]
    cases pixel f idx <;> simp

/-- Sprites that cover the same pixels of the screen are the same drawing. -/
theorem drawSprite_congr {px' py' : Nat} {rows' : List Byte} (f : BitVec 2048)
    (h : ∀ idx, idx < 2048 → spriteBit px py rows idx = spriteBit px' py' rows' idx) :
    drawSprite px py rows f = drawSprite px' py' rows' f :=
  (drawSprite_overlays px py rows f).unique (drawSprite_overlays px' py' rows' f) h

/-- Settles O39: each pair of sprites covers the same pixels; one below the screen, those of a sprite with no rows. -/
theorem spriteWrapsAcrossClipsBelow : Obligations.SpriteWrapsAcrossClipsBelow := by
  intro px py rows f
  refine ⟨drawSprite_congr f fun idx _ => ?_, drawSprite_congr f fun idx hidx => (spriteBit_take hidx ..).symm,
    fun hpy => ?_⟩
  · rw [spriteBit_eq, spriteBit_eq, columnFrom_add_width]
  · exact drawSprite_congr (px' := px) (py' := py) (rows' := []) f fun idx hidx => by
      rw [spriteBit_of_below hpy hidx, spriteBit_nil]

/-! ### DrawSprite (R133) -/

/-- The bytes of a sprite of `n` rows at I. -/
def State.spriteRows (s : State) (n : Nat) : List Byte := (List.range n).map fun k => s.byteAt (s.indexBase + k)

/-- The canvas shown: the framebuffer, VF the collision, one REPAINT. -/
def State.showCanvas (s : State) (c : Canvas) : State := ((s.setFb c.1).setV vf (flagByte c.2)).repaint

@[simp] theorem State.showCanvas_getV_vf (s : State) (c : Canvas) : (s.showCanvas c).getV vf = flagByte c.2 :=
  (s.setFb c.1).getV_setV_same vf _

theorem State.showCanvas_frame (s : State) (c : Canvas) : Unchanged [.fb, .v vf, .repaints] s (s.showCanvas c) :=
  have hfb := (s.setFb_frame c.1).weaken (big := [.fb, .v vf, .repaints]) (by simp)
  have hvf := (State.setV_frame _ vf (flagByte c.2)).weaken (big := [.fb, .v vf, .repaints]) (by simp)
  (hfb.trans hvf).trans ((State.repaint_frame _).weaken (by simp))

/-- With its bytes in range, DrawSprite shows their sprite. -/
theorem exec_drawSprite_of_fits {n : Nibble} (x y : Nibble) (h : n = 0 ∨ s.indexBase + n.toNat ≤ Config.memSize) :
    exec (.drawSprite x y n) s =
      .next (s.showCanvas (drawSprite (s.getV x).toNat (s.getV y).toNat (s.spriteRows n.toNat) s.fb)) := by
  have hread : s.readBytes s.indexBase n.toNat = some (s.spriteRows n.toNat) := by
    rw [State.readBytes_eq]
    exact if_pos (h.imp_left fun hn => hn ▸ rfl)
  simp only [exec, execDrawSprite, hread, State.showCanvas]

/-- With a byte out of range, it raises the fault and draws nothing. -/
theorem exec_drawSprite_of_overflows {n : Nibble} (x y : Nibble) (hn : n ≠ 0)
    (h : Config.memSize < s.indexBase + n.toNat) :
    exec (.drawSprite x y n) s = .next (s.raise .addressOutOfRange) := by
  have hread : s.readBytes s.indexBase n.toNat = none := by
    rw [State.readBytes_eq]
    exact if_neg (not_or_intro (fun hz => hn (BitVec.eq_of_toNat_eq hz)) (Nat.not_le_of_lt h))
  simp only [exec, execDrawSprite, hread]

/-- A flag says whether its condition holds. -/
theorem flagByte_eq_one_or_zero {b : Bool} {p : Prop} (h : b = true ↔ p) : flagByte b = 1 ∧ p ∨ flagByte b = 0 ∧ ¬p := by
  cases b with
  | false => exact .inr ⟨rfl, fun hp => Bool.false_ne_true (h.mpr hp)⟩
  | true => exact .inl ⟨rfl, h.mp rfl⟩

/-- Settles O37: the canvas shown is the one of O36, and out of range there is only the fault. -/
theorem drawSpriteResult : Obligations.DrawSpriteResult := by
  refine ⟨fun x y n s h => ?_, fun x y n s hn h => ?_⟩
  · obtain ⟨hpixel, hcoll⟩ := spriteCompositing (s.getV x).toNat (s.getV y).toNat (s.spriteRows n.toNat) s.fb
    refine ⟨_, _, exec_drawSprite_of_fits x y h, rfl, hpixel, ?_, rfl, s.showCanvas_frame _⟩
    rw [State.showCanvas_getV_vf]
    exact (flagByte_eq_one_or_zero hcoll).imp_right (.imp_right fun hnone idx hidx hset =>
      Bool.eq_false_of_not_eq_true fun hbit => hnone ⟨idx, hidx, hset, hbit⟩)
  · exact ⟨_, exec_drawSprite_of_overflows x y hn h, rfl, s.raise_frame _⟩

end Sys2Proof.Machine
end

section
/-! Keypad and timer instructions (45_keypad_timers.md): the skips that sample KEY, WaitKey in both cases of the sample, and the
moves between the timers and the registers. -/

namespace Sys2Proof.Machine

variable {s : State} {i : Instr}

/-! ### The keypad skips (R140, R141, R146) -/

/-- An instruction that samples KEY once and skips on a test of `p` moves PC on by 2 exactly when `p` holds, and changes nothing
else but the count of samples. -/
theorem exec_sampledSkip_spec {c : Bool} {p : Prop} (hi : exec i s = .next (s.drawn.skipIf c)) (hc : c = true ↔ p) :
    ∃ t, exec i s = .next t ∧ (p → t.pc = s.pc + 2) ∧ (¬p → t.pc = s.pc) ∧
      t.env.draws = s.env.draws + 1 ∧ Unchanged [.pc, .draws] s t := by
  have hpc : (s.drawn.skipIf c).pc = if c = true then s.pc + 2 else s.pc := s.drawn.skipIf_pc c
  have hdraws : (s.drawn.skipIf c).env.draws = s.env.draws + 1 := by rw [State.skipIf_env, State.drawn_env]
  exact ⟨_, hi, fun hp => hpc.trans (if_pos (hc.mpr hp)), fun hp => hpc.trans (if_neg (mt hc.mp hp)), hdraws,
    (s.drawn_frame.weaken (by simp)).trans ((s.drawn.skipIf_frame c).weaken (by simp))⟩

/-- Settles O40: the two skips test one match, the second for its failure. -/
theorem keypadSkips : Obligations.KeypadSkips := by
  intro x s
  have hmatch := keyMatches_iff s.keyNow (s.getV x)
  have hnomatch : (!keyMatches s.keyNow (s.getV x)) = true ↔ ¬∃ k, s.keyNow = some k ∧ k.toNat = (s.getV x).toNat := by
    rw [Bool.not_eq_true', ← Bool.not_eq_true, hmatch]
  obtain ⟨t, ht, hskip, hstay, hrest⟩ := exec_sampledSkip_spec (i := .skipIfNotPressed x) rfl hnomatch
  exact ⟨⟨decode_eq_instr_iff.mpr rfl, decode_eq_instr_iff.mpr rfl⟩, exec_sampledSkip_spec rfl hmatch,
    t, ht, fun hp => hstay (not_not_intro hp), hskip, hrest⟩

/-! ### WaitKey (R142) -/

/-- What becomes of a WaitKey leaves the host's side. -/
@[simp] theorem State.awaitKey_env (s : State) (x : Nibble) (k : Option Nibble) : (s.awaitKey x k).env = s.env := by
  cases k <;> rfl

/-- With no key, WAIT alone changes. -/
theorem State.awaitKey_none_frame (s : State) (x : Nibble) : Unchanged [.wait] s (s.awaitKey x none) := by
  rw [State.awaitKey_none]
  exact s.setWait_frame _

/-- Settles O41, by what the sample of KEY finds. -/
theorem waitKeyResult : Obligations.WaitKeyResult := by
  intro x s
  have hdraws : (s.drawn.awaitKey x s.keyNow).env.draws = s.env.draws + 1 := by rw [State.awaitKey_env, State.drawn_env]
  refine ⟨_, rfl, State.awaitKey_pc .., hdraws, fun k hk => ?_, fun hk => ?_⟩
  · rw [hk]
    exact ⟨by rw [State.awaitKey_some_getV, keyByte_toNat], rfl,
      (s.drawn_frame.weaken (by simp)).trans ((s.drawn.awaitKey_some_frame x k).weaken (by simp))⟩
  · rw [hk]
    exact ⟨rfl, (s.drawn_frame.weaken (by simp)).trans ((s.drawn.awaitKey_none_frame x).weaken (by simp))⟩

/-! ### The timers (R143 to R145) -/

/-- Settles O43: each of the three is one write. -/
theorem timerInstructions : Obligations.TimerInstructions := fun _ s =>
  ⟨exec_setV_spec rfl, ⟨_, rfl, rfl, s.setDt_frame _⟩, ⟨_, rfl, rfl, s.setSt_frame _⟩⟩

end Sys2Proof.Machine
end

section
/-! Faults and timers (60_exceptions.md): the fault each instruction can raise, what n TimerTicks in a row leave, and the event
TimerTick itself. -/

namespace Sys2Proof.Machine

variable {s : State}

/-! ### The fault of each instruction (R150, R155) -/

/-- Stores raise no fault but AddressOutOfRange (R154). -/
theorem State.storeBytes_err_cases (he : s.err = none) (a : Nat) (bs : List Byte) :
    (s.storeBytes a bs).err = none ∨ (s.storeBytes a bs).err = some .addressOutOfRange := by
  obtain ⟨m, e, h, hcases⟩ := State.storeBytes_other bs s a
  rw [h]
  exact hcases.imp_left (·.trans he)

/-- Register loads raise no fault but AddressOutOfRange (R154). -/
theorem State.loadRegs_err_cases (he : s.err = none) (a : Nat) (rs : List Nibble) :
    (s.loadRegs a rs).err = none ∨ (s.loadRegs a rs).err = some .addressOutOfRange := by
  obtain ⟨v, e, h, hcases⟩ := State.loadRegs_other rs s a
  rw [h]
  exact hcases.imp_left (·.trans he)

/-- Settles O13: Call and Return by the depth, the memory instructions by what their accesses can raise; no other instruction
writes ERR. -/
theorem faultsByInstruction : Obligations.FaultsByInstruction := by
  intro i s t he h
  cases i with
  | call nnn =>
    by_cases hd : s.depth.val < 16
    · rw [exec_call_of_push (State.push_ok hd)] at h; cases h; exact .inl he
    · rw [exec_call_of_full hd] at h; cases h; exact .inr rfl
  | ret =>
    by_cases hd : 0 < s.depth.val
    · rw [exec_ret_of_pop (State.pop_ok hd)] at h; cases h; exact .inl he
    · rw [exec_ret_of_empty hd] at h; cases h; exact .inr rfl
  | drawSprite x y n =>
    obtain ⟨f, c, hd⟩ | hd := exec_drawSprite_cases x y n s
    · rw [hd] at h; cases h; exact .inl he
    · rw [hd] at h; cases h; exact .inr rfl
  | storeBCD x | regDump x => cases h; exact State.storeBytes_err_cases he ..
  | regLoad x => cases h; exact State.loadRegs_err_cases he ..
  | skipEqImm x kk | skipNeImm x kk | skipEqReg x y z | skipNeReg x y z | skipIfPressed x
  | skipIfNotPressed x => cases h; exact (State.skipIf_err ..).trans he
  | waitKey x => cases h; exact (State.awaitKey_err ..).trans he
  | _ => cases h; exact he

/-! ### TimerTicks in a row (R164) -/

/-- Writing the two timers, as one tick and n ticks do, leaves every other part. -/
theorem State.setTimers_frame (s : State) (d e : Byte) : Unchanged [.dt, .st] s ((s.setDt d).setSt e) :=
  ((s.setDt_frame d).weaken (by simp)).trans (((s.setDt d).setSt_frame e).weaken (by simp))

theorem ticksByte_zero (b : Byte) : ticksByte 0 b = b :=
  BitVec.eq_of_toNat_eq (ticksByte_toNat 0 b)

/-- One tick more, of a timer that may have stopped already. -/
theorem ticksByte_succ (n : Nat) (b : Byte) : ticksByte (n + 1) b = tickByte (ticksByte n b) :=
  BitVec.eq_of_toNat_eq (by rw [tickByte_toNat, ticksByte_toNat, ticksByte_toNat, Nat.sub_add_eq])

theorem State.timerTicks_zero (s : State) : s.timerTicks 0 = s := by
  unfold State.timerTicks
  rw [ticksByte_zero, ticksByte_zero]
  rfl

theorem State.timerTicks_succ (s : State) (n : Nat) : s.timerTicks (n + 1) = (s.timerTicks n).timerTick := by
  unfold State.timerTicks
  rw [ticksByte_succ, ticksByte_succ]
  rfl

theorem State.timerTicks_eq_iterate (s : State) (n : Nat) : s.timerTicks n = State.timerTick^[n] s := by
  induction n with
  | zero => exact s.timerTicks_zero
  | succ n ih => rw [Function.iterate_succ_apply', ← ih, State.timerTicks_succ]

/-- Settles O44: n ticks are the model's `timerTicks n`, which takes n from each timer in one write. -/
theorem timersCountDownToZero : Obligations.TimersCountDownToZero := by
  intro s n
  rw [← s.timerTicks_eq_iterate n]
  exact ⟨ticksByte_toNat n s.dt, ticksByte_toNat n s.st, s.setTimers_frame _ _, rfl⟩

/-! ### The event TimerTick (R153, R164) -/

/-- A step runs the first event of the schedule, taken off it. -/
theorem step_of_sched {e : Event} {rest : List Event} (h : s.env.sched = e :: rest) : step s = runEvent e s.popEvent := by
  unfold step State.nextEvent
  rw [h]

/-- The schedule is no part of the core. -/
theorem Part.same_popEvent (s t : State) (p : Part) : p.same s.popEvent t ↔ p.same s t := by
  cases p <;> rfl

/-- Settles O45: the event is one tick, by its frame, whatever ERR and WAIT hold. -/
theorem timerTickEventNeverHeld : Obligations.TimerTickEventNeverHeld := by
  intro s rest hsched
  have hrest : s.env.sched.tail = rest := by rw [hsched, List.tail_cons]
  obtain ⟨hparts, -⟩ := s.popEvent.setTimers_frame (tickByte s.dt) (tickByte s.st)
  exact ⟨s.popEvent.timerTick, step_of_sched hsched, tickByte_toNat s.dt, tickByte_toNat s.st, hrest,
    fun p hp => (Part.same_popEvent s _ p).mp (hparts p hp)⟩

end Sys2Proof.Machine
end

section
/-! The event Load (70_reset_and_hazards.md R184, R185): what it answers in its window and outside it, and what it does with a
program that fits and with one that does not. -/

namespace Sys2Proof.Machine

variable {s : State} {bytes : List Byte}

/-- In its window a Load is performed (R184). -/
theorem runEvent_load_of_open (h : s.env.loadOpen = true) : runEvent (.load bytes) s = .next (s.loadEvent bytes) :=
  if_pos h

/-- Outside it the model has no answer (log 14). -/
theorem runEvent_load_of_shut (h : s.env.loadOpen = false) : runEvent (.load bytes) s = .refused .loadOutsideWindow :=
  if_neg (Bool.not_eq_true _ ▸ h)

/-- A program that fits is written from 0x200. -/
theorem State.loadEvent_of_fits (h : bytes.length ≤ 3584) :
    s.loadEvent bytes =
      { s with mem := s.mem.writeAll 0x200 bytes, env := { s.env with loadStatus := some .ok } } :=
  if_pos h

/-- A longer one is answered to the host, and nothing is written. -/
theorem State.loadEvent_of_too_large (h : 3584 < bytes.length) :
    s.loadEvent bytes = { s with env := { s.env with loadStatus := some .romTooLarge } } :=
  if_neg (Nat.not_le_of_lt h)

/-- Of the core, a Load reaches memory alone. -/
theorem State.loadEvent_parts (s : State) (bytes : List Byte) {p : Part} (hp : p ∉ [Part.mem]) :
    p.same s (s.loadEvent bytes) := by
  by_cases h : bytes.length ≤ 3584
  · rw [State.loadEvent_of_fits h]
    exact (s.withMem_frame _).1 p hp
  · rw [State.loadEvent_of_too_large (Nat.lt_of_not_le h)]
    exact (Unchanged.refl [] s).1 p (by simp)

/-- The k-th byte of a program that fits stands k addresses after 0x200. -/
theorem State.loadEvent_byteAt_program (hs : s.memWf) (h : bytes.length ≤ 3584) {k : Nat} (hk : k < bytes.length) :
    (s.loadEvent bytes).byteAt (0x200 + k) = bytes[k] := by
  have hfits : 0x200 + bytes.length ≤ Config.memSize := by rw [memSize_eq]; omega
  have hin : 0x200 ≤ 0x200 + k ∧ 0x200 + k - 0x200 < bytes.length := by omega
  rw [State.loadEvent_of_fits h, State.byteAt, Memory.read_writeAll hs hfits, dif_pos hin]
  simp only [Nat.add_sub_cancel_left]

/-- Below and above the program memory keeps its bytes. -/
theorem State.loadEvent_byteAt_outside (hs : s.memWf) (h : bytes.length ≤ 3584) {a : Nat}
    (ha : a < 0x200 ∨ 0x200 + bytes.length ≤ a) : (s.loadEvent bytes).byteAt a = s.byteAt a := by
  have hfits : 0x200 + bytes.length ≤ Config.memSize := by rw [memSize_eq]; omega
  have hout : ¬(0x200 ≤ a ∧ a - 0x200 < bytes.length) := by omega
  rw [State.loadEvent_of_fits h, State.byteAt, Memory.read_writeAll hs hfits, dif_neg hout]
  rfl

/-- Settles O57: taking the event off the schedule leaves the core, and Load's two cases are R185's. -/
theorem loadPlacesProgram : Obligations.LoadPlacesProgram := by
  intro s bytes rest hs hsched hopen
  have hpop : s.popEvent.memWf := hs
  refine ⟨_, (step_of_sched hsched).trans (runEvent_load_of_open (s := s.popEvent) hopen), fun p hp => ?_,
    fun hfits => ⟨?_, fun k hk => State.loadEvent_byteAt_program hpop hfits hk,
      fun a ha => State.loadEvent_byteAt_outside hpop hfits ha⟩, fun hlarge => ?_⟩
  · exact (Part.same_popEvent s _ p).mp (s.popEvent.loadEvent_parts bytes hp)
  · rw [State.loadEvent_of_fits hfits]
  · rw [State.loadEvent_of_too_large hlarge]
    exact ⟨rfl, rfl⟩

end Sys2Proof.Machine
end

section
/-! Dead stack cells (70_reset_and_hazards.md R183): the cells above SP reach nothing that a step does, and a step leaves the
cells that live after it the same. -/

namespace Sys2Proof.Machine

/-- The state with other cells in its stack, at the same depth. -/
def State.withCells (s : State) (cells : Vector Word 16) : State := { s with stack := cells }

/-- The `cells` agree with the stack of `s` below its depth, where the cells live. -/
def State.LiveCellsAgree (s : State) (cells : Vector Word 16) : Prop :=
  ∀ k (h : k < 16), k < s.depth.val → cells[k]'h = s.stack[k]'h

theorem sameButDeadCells_iff {s t : State} :
    SameButDeadCells s t ↔ ∃ cells, s.LiveCellsAgree cells ∧ t = s.withCells cells := by
  constructor
  · exact fun ⟨ht, hlive⟩ => ⟨t.stack, hlive, ht⟩
  · rintro ⟨cells, hlive, rfl⟩
    exact ⟨rfl, hlive⟩

theorem SameButDeadCells.refl (s : State) : SameButDeadCells s s := ⟨rfl, fun _ _ _ => rfl⟩

variable {s s' : State} {cells : Vector Word 16}

/-- Where the stack and its depth are kept, the same other cells differ in dead ones only. -/
theorem State.LiveCellsAgree.same_after (hc : s.LiveCellsAgree cells) (hst : Part.stack.same s s') :
    SameButDeadCells s' (s'.withCells cells) := by
  obtain ⟨hdepth, hstack⟩ := hst
  refine sameButDeadCells_iff.mpr ⟨cells, fun k hk hlt => ?_, rfl⟩
  rw [hdepth] at hlt
  simp only [hstack, hc k hk hlt]

/-! ### The operations, with other cells in the stack -/

theorem State.skipIf_withCells (s : State) (b : Bool) : (s.withCells cells).skipIf b = (s.skipIf b).withCells cells := by
  cases b <;> rfl

theorem State.awaitKey_withCells (s : State) (x : Nibble) (k : Option Nibble) :
    (s.withCells cells).awaitKey x k = (s.awaitKey x k).withCells cells := by
  cases k <;> rfl

theorem State.readBytes_withCells (s : State) (a n : Nat) : (s.withCells cells).readBytes a n = s.readBytes a n := by
  rw [State.readBytes_eq, State.readBytes_eq]
  rfl

theorem State.storeBytes_withCells (s : State) (a : Nat) (bs : List Byte) :
    (s.withCells cells).storeBytes a bs = (s.storeBytes a bs).withCells cells := by
  by_cases hfits : a + bs.length ≤ Config.memSize
  · rw [State.storeBytes_fits hfits, State.storeBytes_fits hfits]
    rfl
  · by_cases hbs : bs = []
    · rw [hbs]
      rfl
    · rw [State.storeBytes_overflows hbs (by omega), State.storeBytes_overflows hbs (by omega)]
      rfl

theorem State.loadRegs_withCells (rs : List Nibble) : ∀ (s : State) (a : Nat),
    (s.withCells cells).loadRegs a rs = (s.loadRegs a rs).withCells cells := by
  induction rs with
  | nil => exact fun _ _ => rfl
  | cons r rs ih =>
    intro s a
    by_cases ha : a < Config.memSize
    · simp only [State.loadRegs, State.memRead_some ha]
      exact ih (s.setV r (s.byteAt a)) (a + 1)
    · simp only [State.loadRegs, State.memRead_none ha]
      rfl

/-! ### The instructions -/

/-- An instruction other than Call and Return neither reads nor writes a stack cell. -/
theorem exec_withCells (s : State) (cells : Vector Word 16) {i : Instr} (hi : i.mnemonic ∉ ["Call", "Return"]) :
    exec i (s.withCells cells) = onNext (·.withCells cells) (exec i s) := by
  cases i with
  | call nnn | ret => simp [Instr.mnemonic] at hi
  | drawSprite x y n =>
    have hread : (s.withCells cells).readBytes (s.withCells cells).indexBase n.toNat = s.readBytes s.indexBase n.toNat :=
      s.readBytes_withCells ..
    simp only [exec, execDrawSprite, hread]
    cases s.readBytes s.indexBase n.toNat <;> rfl
  | storeBCD x | regDump x => exact congrArg Host.Outcome.next (s.storeBytes_withCells ..)
  | regLoad x => exact congrArg Host.Outcome.next (State.loadRegs_withCells _ s _)
  | skipEqImm x kk | skipNeImm x kk | skipEqReg x y z | skipNeReg x y z =>
    exact congrArg Host.Outcome.next (s.skipIf_withCells _)
  | skipIfPressed x | skipIfNotPressed x => exact congrArg Host.Outcome.next (s.drawn.skipIf_withCells _)
  | waitKey x => exact congrArg Host.Outcome.next (s.drawn.awaitKey_withCells ..)
  | _ => rfl

/-- Call: the entry it pushes is the same, and covers the one cell that comes to life. -/
theorem exec_call_hides_deadCells {nnn : Imm12} (hc : s.LiveCellsAgree cells) (h : exec (.call nnn) s = .next s') :
    ∃ t', exec (.call nnn) (s.withCells cells) = .next t' ∧ SameButDeadCells s' t' := by
  by_cases hd : s.depth.val < 16
  · rw [exec_call_of_push (State.push_ok hd)] at h
    cases h
    refine ⟨_, exec_call_of_push (State.push_ok (s := s.withCells cells) hd), rfl, fun k hk hlt => ?_⟩
    show (cells.set s.depth.val s.pc hd)[k] = (s.stack.set s.depth.val s.pc hd)[k]
    by_cases hk' : k = s.depth.val
    · subst hk'
      rw [Vector.getElem_set_self, Vector.getElem_set_self]
    · rw [Vector.getElem_set_ne _ _ (Ne.symm hk'), Vector.getElem_set_ne _ _ (Ne.symm hk')]
      exact hc k hk (Nat.lt_of_le_of_ne (Nat.le_of_lt_succ hlt) hk')
  · rw [exec_call_of_full hd] at h
    cases h
    exact ⟨_, exec_call_of_full (s := s.withCells cells) hd, hc.same_after ⟨rfl, rfl⟩⟩

/-- Return: the entry it pops is a live one, and the cells below it live on. -/
theorem exec_ret_hides_deadCells (hc : s.LiveCellsAgree cells) (h : exec .ret s = .next s') :
    ∃ t', exec .ret (s.withCells cells) = .next t' ∧ SameButDeadCells s' t' := by
  by_cases hd : 0 < s.depth.val
  · have hlt := s.depth.isLt
    have htop : cells[s.depth.val - 1] = s.stack[s.depth.val - 1] := hc _ (by omega) (by omega)
    have hpop := State.pop_ok (s := s.withCells cells) hd
    rw [exec_ret_of_pop (State.pop_ok hd), ← htop] at h
    cases h
    exact ⟨_, exec_ret_of_pop hpop, rfl, fun k hk hkd => hc k hk (Nat.lt_of_lt_of_le hkd (Nat.sub_le _ 1))⟩
  · rw [exec_ret_of_empty hd] at h
    cases h
    exact ⟨_, exec_ret_of_empty (s := s.withCells cells) hd, hc.same_after ⟨rfl, rfl⟩⟩

theorem exec_hides_deadCells {i : Instr} (hc : s.LiveCellsAgree cells) (h : exec i s = .next s') :
    ∃ t', exec i (s.withCells cells) = .next t' ∧ SameButDeadCells s' t' := by
  by_cases hi : i.mnemonic ∈ ["Call", "Return"]
  · cases i with
    | call nnn => exact exec_call_hides_deadCells hc h
    | ret => exact exec_ret_hides_deadCells hc h
    | _ => simp [Instr.mnemonic] at hi
  · obtain ⟨-, hstack, -⟩ := whoWritesWhat i s s' h
    have hsame : Part.stack.same s s' := by_contra fun hne => hi (hstack hne)
    exact ⟨s'.withCells cells, by rw [exec_withCells s cells hi, h]; rfl, hc.same_after hsame⟩

/-! ### Every event -/

/-- A Step begins the same way whatever the stack holds, and goes on to the same instruction. -/
theorem coreStep_hides_deadCells (hc : s.LiveCellsAgree cells) (h : coreStep s = .next s') :
    ∃ t', coreStep (s.withCells cells) = .next t' ∧ SameButDeadCells s' t' := by
  obtain ⟨he, rfl⟩ | ⟨he, w, hw, rfl⟩ | ⟨he, hw, hp, rfl⟩ | ⟨hf, hu, rfl⟩ | ⟨hf, i, hi, hexec⟩ := coreStep_cases h
  · exact ⟨_, coreStep_of_halted (s := s'.withCells cells) he, hc.same_after ⟨rfl, rfl⟩⟩
  · refine ⟨_, (coreStep_of_waiting (s := s.withCells cells) he hw).trans ?_, hc.same_after ⟨by simp, by simp⟩⟩
    exact congrArg Host.Outcome.next (s.drawn.awaitKey_withCells w s.keyNow)
  · exact ⟨_, coreStep_of_fetch_fault (s := s.withCells cells) he hw hp, hc.same_after ⟨rfl, rfl⟩⟩
  · exact ⟨_, coreStep_of_unsupported (s := s.withCells cells) hf hu, hc.same_after ⟨rfl, rfl⟩⟩
  · rw [coreStep_of_instr (s := s.withCells cells) hf hi]
    exact exec_hides_deadCells (s := s.advance) hc hexec

/-- The TimerTicks after a Step leave the stack. -/
theorem SameButDeadCells.elapse {t : State} (h : SameButDeadCells s t) : SameButDeadCells s.elapse t.elapse := by
  obtain ⟨cells, hc, rfl⟩ := sameButDeadCells_iff.mp h
  exact hc.same_after (s' := s.elapse) ⟨rfl, rfl⟩

/-- A Load never looks at the stack. -/
theorem State.loadEvent_withCells (s : State) (bytes : List Byte) :
    (s.withCells cells).loadEvent bytes = (s.loadEvent bytes).withCells cells := by
  by_cases h : bytes.length ≤ 3584
  · rw [State.loadEvent_of_fits h, State.loadEvent_of_fits h]
    rfl
  · rw [State.loadEvent_of_too_large (Nat.lt_of_not_le h), State.loadEvent_of_too_large (Nat.lt_of_not_le h)]
    rfl

/-- A Reset overwrites every cell, and no other event but a Step reads or writes one. -/
theorem runEvent_hides_deadCells {e : Event} (hc : s.LiveCellsAgree cells) (h : runEvent e s = .next s') :
    ∃ t', runEvent e (s.withCells cells) = .next t' ∧ SameButDeadCells s' t' := by
  cases e with
  | step =>
    obtain ⟨u, hu, rfl⟩ := onNext_inv h
    obtain ⟨t, ht, hsame⟩ := coreStep_hides_deadCells (s := s.closeLoad) hc hu
    exact ⟨t.elapse, congrArg (onNext State.elapse) ht, hsame.elapse⟩
  | reset => exact ⟨s', h, .refl s'⟩
  | load bytes =>
    by_cases ho : s.env.loadOpen = true
    · rw [runEvent_load_of_open ho] at h
      cases h
      have hstack : Part.stack.same s (s.loadEvent bytes) := s.loadEvent_parts bytes (by simp)
      refine ⟨_, (runEvent_load_of_open (s := s.withCells cells) ho).trans ?_, hc.same_after hstack⟩
      exact congrArg Host.Outcome.next (s.loadEvent_withCells bytes)
    · rw [runEvent_load_of_shut (Bool.eq_false_of_not_eq_true ho)] at h
      cases h
  | timerTick | setKey k | setRand b | setTicks n =>
    cases h
    exact ⟨_, rfl, hc.same_after ⟨rfl, rfl⟩⟩

/-- Settles O59: the two states have the same next event, and no event lets a dead cell reach anything but a dead cell. -/
theorem deadStackCellsUnobservable : Obligations.DeadStackCellsUnobservable := by
  intro s t s' hst h
  obtain ⟨cells, hc, rfl⟩ := sameButDeadCells_iff.mp hst
  exact runEvent_hides_deadCells (s := s.popEvent) hc h

end Sys2Proof.Machine
end

section
/-! The event Reset and the parameter FONT (70_reset_and_hazards.md R180; 00_scope.md R6 (a)): what a Reset leaves, the
invariants it meets, and that no step changes FONT. -/

namespace Sys2Proof.Machine

variable {s t : State}

/-! ### The reset state and the invariants -/

/-- PC is 0x200, and no return address stands on the stack. -/
theorem State.resetWith_pcBounded (f : FontTable) : (State.resetWith f).pcBounded :=
  State.pcBounded_iff.mpr ⟨by rw [State.resetWith_pc]; decide, fun k _ hk => absurd hk (Nat.not_lt_zero k)⟩

theorem State.resetWith_invariants (f : FontTable) :
    (State.resetWith f).memWf ∧ (State.resetWith f).pcBounded ∧ (State.resetWith f).oneLatch :=
  ⟨Memory.seeded_wf f, State.resetWith_pcBounded f, .inl (State.resetWith_err f)⟩

/-- Settles O54: the reset state is the one with FONT at its default. -/
theorem resetMeetsInvariants : Obligations.ResetMeetsInvariants :=
  ⟨State.resetWith_default ▸ State.resetWith_invariants defaultFont, State.resetWith_invariants⟩

/-! ### FONT from step to step (log 2) -/

/-- A frame keeps FONT, whatever parts it lists. -/
theorem Unchanged.font {but : List Part} (h : Unchanged but s t) : t.env.font = s.env.font := by
  obtain ⟨-, -, -, -, -, -, -, hfont⟩ := h
  exact hfont

theorem exec_keeps_font {i : Instr} (h : exec i s = .next t) : t.env.font = s.env.font := by
  cases i with
  | call nnn =>
    by_cases hd : s.depth.val < 16
    · rw [exec_call_of_push (State.push_ok hd)] at h; cases h; rfl
    · rw [exec_call_of_full hd] at h; cases h; rfl
  | ret =>
    by_cases hd : 0 < s.depth.val
    · rw [exec_ret_of_pop (State.pop_ok hd)] at h; cases h; rfl
    · rw [exec_ret_of_empty hd] at h; cases h; rfl
  | drawSprite x y n =>
    obtain ⟨f, b, hd⟩ | hd := exec_drawSprite_cases x y n s
    · rw [hd] at h; cases h; rfl
    · rw [hd] at h; cases h; rfl
  | storeBCD x | regDump x => cases h; exact (State.storeBytes_frame ..).font
  | regLoad x => cases h; exact (State.loadRegs_frame ..).font
  | skipEqImm x kk | skipNeImm x kk | skipEqReg x y z | skipNeReg x y z | skipIfPressed x
  | skipIfNotPressed x => cases h; exact (State.skipIf_frame ..).font
  | waitKey x => cases h; rw [State.awaitKey_env]; rfl
  | _ => cases h; rfl

theorem coreStep_keeps_font (h : coreStep s = .next t) : t.env.font = s.env.font := by
  obtain ⟨-, rfl⟩ | ⟨-, w, -, rfl⟩ | ⟨-, -, -, rfl⟩ | ⟨-, -, rfl⟩ | ⟨-, i, -, hi⟩ := coreStep_cases h
  · rfl
  · rw [State.awaitKey_env]; rfl
  · rfl
  · rfl
  · exact exec_keeps_font (s := s.advance) hi

theorem State.loadEvent_font (s : State) (bytes : List Byte) : (s.loadEvent bytes).env.font = s.env.font := by
  by_cases h : bytes.length ≤ 3584
  · rw [State.loadEvent_of_fits h]
  · rw [State.loadEvent_of_too_large (Nat.lt_of_not_le h)]

theorem step_keeps_font (h : step s = .next t) : t.env.font = s.env.font := by
  obtain ⟨-, u, hu, rfl⟩ | ⟨-, rfl⟩ | ⟨-, rfl⟩ | ⟨bytes, -, -, rfl⟩ | ⟨e, he, rfl⟩ := step_cases h
  · have hstep : u.env.font = s.popEvent.closeLoad.env.font := coreStep_keeps_font hu
    exact hstep
  · rfl
  · rfl
  · exact s.popEvent.loadEvent_font bytes
  · exact he

/-- Settles O56: a Reset leaves the reset state for the machine's FONT, and every step keeps FONT. -/
theorem resetEventRestoresReset : Obligations.ResetEventRestoresReset := by
  refine ⟨fun s rest hsched => ?_, fun s t => step_keeps_font⟩
  have hrest : s.env.sched.tail = rest := by rw [hsched, List.tail_cons]
  exact ⟨s.popEvent.resetEvent, step_of_sched hsched, rfl, fun k hk => State.resetWith_byteAt_font s.env.font hk,
    rfl, hrest⟩

end Sys2Proof.Machine
end

section
/-! The normal end of a run (70_reset_and_hazards.md R188): a Jump to its own address. -/

namespace Sys2Proof.Machine

/-- An address within the 12-bit space is the operand of the Jump to it. -/
theorem addrOperand_setWidth {a : Word} (h : a.toNat ≤ 4095) : addrOperand (a.setWidth 12) = a := by
  refine BitVec.eq_of_toNat_eq ?_
  rw [addrOperand_toNat, BitVec.toNat_setWidth]
  exact Nat.mod_eq_of_lt (by omega)

/-- The word of a Jump is its operand under the high nibble 1 (30_encoding.md R64). -/
theorem encode_jump_eq (nnn : Imm12) : encode (.jump nnn) = 0x1000 ||| addrOperand nnn := by
  refine BitVec.eq_of_getLsbD_eq fun k hk => ?_
  simp only [encode, wordNNN, addrOperand, BitVec.getLsbD_append, BitVec.getLsbD_or, BitVec.getLsbD_setWidth]
  interval_cases k <;> simp

/-- A Jump to the address it was fetched from undoes the advance of the fetch. -/
theorem exec_jump_to_self {s : State} {nnn : Imm12} (h : addrOperand nnn = s.pc) : exec (.jump nnn) s.advance = .next s := by
  show Host.Outcome.next (s.advance.setPc (addrOperand nnn)) = .next s
  rw [h]
  rfl

/-- Settles O58: the word at PC is the Jump to PC. -/
theorem endedRunStands : Obligations.EndedRunStands := by
  intro s ⟨he, hw, hp, hfetch⟩
  have htarget : addrOperand (s.pc.setWidth 12) = s.pc := addrOperand_setWidth (by omega)
  have hword : s.wordAtPc = 0x1000 ||| s.pc := Option.some.inj ((State.fetch_some hp).symm.trans hfetch)
  have hjump : decode s.wordAtPc = .instr (.jump (s.pc.setWidth 12)) := by
    rw [decode_eq_instr_iff, encode_jump_eq, htarget, hword]
  rw [coreStep_of_instr ⟨he, hw, hp⟩ hjump, exec_jump_to_self htarget]

end Sys2Proof.Machine
end
